-- ==== Sys2Proof/Word.lean ====
section
/-! DEFINITION. The byte, the one word type of the LS-8 (R4: XLEN = BYTE = 8), and the register index (R4: NREG = 8). -/

namespace Sys2Proof

/-- A memory cell, an opcode, an operand or a register value: 8 bits, unsigned (R4, R5). -/
abbrev Byte := BitVec 8

/-- The index of a general register, `0..7` (R21, R22). -/
abbrev RegIndex := Fin 8

end Sys2Proof
end

