-- ==== Sys2Proof/Config.lean ====
section
/-! DEFINITION. The parameters of the hardware (R4) and their defaults. Everything else R4 lists is fixed. -/

namespace Sys2Proof

/-- The parameters R4 leaves OPEN and a step depends on (R118): the number of memory cells and whether
LDI, MUL and ADD also emit debug records. They are data of the machine, so that a statement over all
states holds for every value of them (DESIGN CHOICE, safe: log entry 1). -/
structure Params where
  /-- `MEM_SIZE`: valid addresses are `0 .. memSize-1` (R4, R50). -/
  memSize : Nat
  /-- `DEBUG_TRACE` (R4, R173). -/
  debugTrace : Bool
  deriving DecidableEq, Repr

/-- The default `MEM_SIZE` (R4, D1; PRESUMED, the spec's own general-knowledge value G1: log entry 1). -/
def Config.defaultMemSize : Nat := 256

/-- The defaults of R4: `MEM_SIZE` 256, `DEBUG_TRACE` false (D9: log entry 2). -/
def Config.defaults : Params := { memSize := Config.defaultMemSize, debugTrace := false }

end Sys2Proof
end

