-- ==== Sys2Proof/Syntax.lean ====
section
/-! DEFINITION. The six instructions (R1, R87), their names, and the three bytes a cycle fetches (R34). -/

namespace Sys2Proof

/-- The names of the six instructions (R87). A name is also the tag of an observation record (R172). -/
inductive Mnemonic where
  | hlt | add | prn | call | ldi | mul
  deriving DecidableEq, Repr

/-- The instructions, one constructor per row of the opcode table (R87), with the operand bytes the
instruction consumes (R84). An operand is the raw byte: a register operand above 7 is still an
instruction, whose execution raises an error (R22). -/
inductive Instr where
  /-- HLT (R180). -/
  | hlt
  /-- ADD Ra (R145). -/
  | add (a : Byte)
  /-- PRN Ra (R170). -/
  | prn (a : Byte)
  /-- CALL Ra (R171). -/
  | call (a : Byte)
  /-- LDI Ra,imm (R160). -/
  | ldi (a b : Byte)
  /-- MUL Ra,Rb (R144). -/
  | mul (a b : Byte)
  deriving DecidableEq, Repr

/-- The name of an instruction. -/
def Instr.mnemonic : Instr → Mnemonic
  | .hlt => .hlt
  | .add _ => .add
  | .prn _ => .prn
  | .call _ => .call
  | .ldi _ _ => .ldi
  | .mul _ _ => .mul

/-- The instruction descriptor `(ir, A, B)` that each cycle builds and discards (R7, R34). -/
structure Descriptor where
  ir : Byte
  a : Byte
  b : Byte
  deriving DecidableEq, Repr

end Sys2Proof
end

