-- ==== Sys2Proof/WellFormed.lean ====
section
/-! DEFINITION. The roles of the operands (R24, R84), and well-formed instructions: those whose every register operand
names a register (R22, R92, R239). LDI's immediate is never checked (R160). -/

namespace Sys2Proof

/-- The operand bytes an instruction uses as register indices (R84, R193). -/
def Instr.registerOperands : Instr → List Byte
  | .hlt => []
  | .add a => [a]
  | .prn a => [a]
  | .call a => [a]
  | .ldi a _ => [a]
  | .mul a b => [a, b]

/-- The operand bytes naming the registers an instruction reads (R24). -/
def Instr.sourceOperands : Instr → List Byte
  | .hlt => []
  | .add a => [a]
  | .prn a => [a]
  | .call a => [a]
  | .ldi _ _ => []
  | .mul a b => [a, b]

/-- The operand bytes naming the register an instruction writes (R24). -/
def Instr.destinationOperands : Instr → List Byte
  | .hlt => []
  | .add a => [a]
  | .prn _ => []
  | .call _ => []
  | .ldi a _ => [a]
  | .mul a _ => [a]

/-- Every register operand is in `0..7` (R239). -/
def Instr.wellFormed (i : Instr) : Bool :=
  i.registerOperands.all fun a => a.toNat ≤ 7

end Sys2Proof
end

