-- ==== Sys2Proof/Decode.lean ====
section
/-! DEFINITION. Encoding (30_encoding.md): the opcode map, the length formula, the decoder and the encoder. -/

namespace Sys2Proof

/-- Why a byte sequence is no instruction. -/
inductive DecodeError where
  /-- The opcode byte is none of the six (R89). -/
  | unknownOpcode (ir : Byte)
  /-- Fewer than the three bytes a cycle fetches were given (R85); no cycle gives fewer. -/
  | tooFewBytes
  deriving DecidableEq, Repr

/-! ### The opcode byte -/

/-- `NOPS`, bits 7:6 of the opcode byte: the encoded operand count `opcode >> 6` (R81, R82). -/
def encodedOperandCount (o : Byte) : Nat := o.toNat >>> 6

/-- `OPID`, bits 5:0 of the opcode byte (R81). The dispatch does not use it alone (R86). -/
def operationId (o : Byte) : Nat := o.toNat % 64

/-- `instruction_length = operand_count + 1`, for all 256 byte values (R82). -/
def decodeLength (o : Byte) : Nat := encodedOperandCount o + 1

/-! ### The opcode map -/

/-- The opcode of each instruction (R87). -/
def opcodeByte : Mnemonic → Byte
  | .hlt => 1
  | .add => 24
  | .prn => 67
  | .call => 72
  | .ldi => 153
  | .mul => 170

/-- The rows of the opcode map in the order of R87. -/
def opcodeRows : List Mnemonic := [.hlt, .add, .prn, .call, .ldi, .mul]

/-- The dispatch: the row whose opcode equals ALL eight bits of the byte, or none (R86). -/
def dispatch (o : Byte) : Option Mnemonic := opcodeRows.find? fun m => opcodeByte m == o

/-! ### Decoding -/

/-- The instruction of a descriptor; an opcode outside the map is rejected by name (R86, R89). The
operand bytes the instruction does not consume are ignored (R85). ADD takes its operand from the byte
after its opcode although its encoded length is 1 (R88). -/
def decode (d : Descriptor) : Except DecodeError Instr :=
  match dispatch d.ir with
  | none => .error (.unknownOpcode d.ir)
  | some .hlt => .ok .hlt
  | some .add => .ok (.add d.a)
  | some .prn => .ok (.prn d.a)
  | some .call => .ok (.call d.a)
  | some .ldi => .ok (.ldi d.a d.b)
  | some .mul => .ok (.mul d.a d.b)

/-- Decode the first three bytes of a sequence, in ascending address order (R54, R80). -/
def decodeBytes : List Byte → Except DecodeError Instr
  | ir :: a :: b :: _ => decode ⟨ir, a, b⟩
  | _ => .error .tooFewBytes

/-! ### Encoding -/

/-- The bytes of an instruction at ascending addresses, as R92 lists them. ADD's second byte lies
outside its encoded length: it is also the next opcode (R88). -/
def encode : Instr → List Byte
  | .hlt => [opcodeByte .hlt]
  | .add a => [opcodeByte .add, a]
  | .prn a => [opcodeByte .prn, a]
  | .call a => [opcodeByte .call, a]
  | .ldi a b => [opcodeByte .ldi, a, b]
  | .mul a b => [opcodeByte .mul, a, b]

/-! ### The opcode table's words -/

/-- The three bytes of an instruction whose bits are `w`, numbered as the opcode table numbers them:
byte `k` is bits `8k+7 .. 8k`, and every bit at or above `nbits` is 0. -/
def tableDescriptor (nbits w : Nat) : Descriptor :=
  let v := w % 2 ^ nbits
  { ir := BitVec.ofNat 8 v, a := BitVec.ofNat 8 (v / 256), b := BitVec.ofNat 8 (v / 65536) }

/-- The instruction the decoder reads from the table word `w` of `nbits` bits. -/
def decodeTableWord (nbits w : Nat) : Option Instr :=
  match decode (tableDescriptor nbits w) with
  | .ok i => some i
  | .error _ => none

end Sys2Proof
end

