-- ==== Sys2Proof/Machine/State.lean ====
section
/-! DEFINITION. The state of the machine (R20), its error records (R190) and its state after reset (R38). -/

namespace Sys2Proof.Machine

/-- The error records of R190, the values of the state's `fault` (R29). Raising one is an ordinary
transition of this machine: the cycle ends in a NEXT state whose `fault` holds the record (R195), so no
step answers `Host.Outcome.fault` (log entry 4). -/
inductive Fault where
  /-- Raised by a cycle whose opcode byte is none of the six, before any handler runs (R191). Safe: the
  spec gives the transition. -/
  | unknownOpcode (ir : Byte)
  /-- Raised by a cycle one of whose three fetch addresses is outside memory; carries the first such
  address (R192). Reported to the host, not to the engine, when a `poke` is out of range (R66). Safe: the
  spec gives the transition. -/
  | outOfBoundsAccess (addr : Nat)
  /-- Raised by the handlers of ADD, PRN, CALL, LDI and MUL for an operand byte above 7 used as a
  register index (R193). Safe: the spec gives the transition. -/
  | registerIndexOutOfRange (i : Byte)
  deriving DecidableEq, Repr

/-- What the model gives no meaning to. No step answers one; a refused host event leaves the state as
it was. -/
inductive Refusal where
  /-- An instruction without a meaning, by its mnemonic. Raised by no arm: every instruction has its
  meaning. Safe. -/
  | notModelled (mnemonic : String)
  /-- Raised by a `poke` while the clock runs, which the host must not do (R66, R231, D11, U9). Safe as
  a stop; that the host keeps to it is unsafe (log entry 7). -/
  | pokeWhileRunning
  /-- Raised by a `poke` to an address outside memory: nothing changes and the host is told (R66, D11,
  U18). Safe: it is the spec's own treatment. -/
  | pokeOutOfRange (addr : Nat)
  deriving DecidableEq, Repr

/-- One record of the observation channel, `(tag, i, v)` (R35, R172). -/
structure Record where
  /-- The name of the emitting instruction. -/
  tag : Mnemonic
  /-- The register index. -/
  index : RegIndex
  /-- The value of that register. -/
  value : Byte
  deriving DecidableEq, Repr

/-- Memory contents: the cells that differ from what an unlisted address reads as, by rising address
(the canonical form `Memory.wf` of Machine/Ops.lean). -/
abbrev Memory := List Host.Cell

/-- The complete state of R20, and the parameters the step depends on (R118). -/
structure State where
  /-- The general registers `x[0] .. x[7]` (R21). -/
  x : Vector Byte 8
  /-- The program counter, a natural number that never wraps (R25, R27). -/
  pc : Nat
  /-- The halt flag (R28). -/
  halt : Bool
  /-- The error record, if a cycle raised one (R29). -/
  fault : Option Fault
  /-- The memory the host owns (R50). -/
  mem : Memory
  /-- The observation channel, oldest record first (R35). -/
  obs : List Record
  /-- Whether the clock is scheduling cycles (R36). -/
  clockRunning : Bool
  /-- `MEM_SIZE` and `DEBUG_TRACE`; no event changes them (R4, R20, R68). -/
  params : Params
  deriving DecidableEq, Repr

/-- The state in which the engine is created, for any parameters and any initial memory `init_mem`
(R38, R67). -/
def State.create (p : Params) (initMem : Memory) : State :=
  { x := Vector.replicate 8 0
    pc := 0
    halt := false
    fault := none
    mem := initMem
    obs := []
    clockRunning := false
    params := p }

/-- The machine right after reset (R38), with the default parameters (R4) and no memory listed (DESIGN
CHOICE, unsafe for the runs of this one state: log entry 3). The clock is stopped until `start()`. -/
def State.reset : State := State.create Config.defaults []

end Sys2Proof.Machine
end

