-- ==== Sys2Proof/Machine/Ops.lean ====
section
/-! DEFINITION. The named operations on memory, registers, the program counter and the observation channel, and
raising an error (R6): everything an instruction or a host event does is put together from these. -/

namespace Sys2Proof.Machine

/-! ### Memory contents -/

/-- What an address that is not listed reads as: DESIGN CHOICE 0, since the source gives no initial
contents (R67, D12: log entry 3). -/
def Memory.unlisted : Byte := 0

/-- The byte at address `k`. -/
def Memory.get : Memory → Nat → Byte
  | [], _ => Memory.unlisted
  | (a, v) :: m, k => if a = k then v else Memory.get m k

/-- Put a cell in front, unless it holds what an unlisted address reads as. -/
def Memory.consCell (k : Nat) (v : Byte) (m : Memory) : Memory :=
  if v = Memory.unlisted then m else (k, v) :: m

/-- Set the byte at address `k`, keeping the canonical form. -/
def Memory.set : Memory → Nat → Byte → Memory
  | [], k, v => Memory.consCell k v []
  | (a, w) :: m, k, v =>
    if k < a then Memory.consCell k v ((a, w) :: m)
    else if k = a then Memory.consCell k v m
    else (a, w) :: Memory.set m k v

/-- The canonical form: addresses strictly rising, and no entry equal to what an unlisted address reads
as. -/
abbrev Memory.wf (m : Memory) : Prop :=
  m.Pairwise (fun c d => c.1 < d.1) ∧ ∀ c ∈ m, c.2 ≠ Memory.unlisted

/-- No cell is listed outside `0 .. n-1` (R50). -/
abbrev Memory.within (m : Memory) (n : Nat) : Prop := ∀ c ∈ m, c.1 < n

/-! ### The memory interface -/

/-- `MemRead(addr, 1)`: the byte, or `OutOfBoundsAccess(addr)` (R51, R53). It changes nothing. -/
def State.memRead (addr : Nat) (s : State) : Except Fault Byte :=
  if addr < s.params.memSize then .ok (s.mem.get addr) else .error (.outOfBoundsAccess addr)

/-- `MemWrite(addr, 1, v)`: store `v mod 256`, or `OutOfBoundsAccess(addr)` (R52). Only `poke` uses it. -/
def State.memWrite (addr v : Nat) (s : State) : Except Fault State :=
  if addr < s.params.memSize then .ok { s with mem := s.mem.set addr (BitVec.ofNat 8 v) }
  else .error (.outOfBoundsAccess addr)

/-! ### Registers, program counter, observation channel -/

/-- `x[i]` (R21). -/
def State.readReg (i : RegIndex) (s : State) : Byte := s.x[i]

/-- `x[i] <- v`: stores `v mod 256` and changes nothing else (R21). -/
def State.writeReg (i : RegIndex) (v : Nat) (s : State) : State :=
  { s with x := s.x.set i (BitVec.ofNat 8 v) }

/-- Steps 5 and 6 of the cycle: `pc <- pc + (ir >> 6) + 1`, without wrapping (R115, R27). -/
def State.advance (ir : Byte) (s : State) : State :=
  { s with pc := s.pc + decodeLength ir }

/-- `emit(tag, i, v)`: append one record (R6, R35). -/
def State.emit (tag : Mnemonic) (i : RegIndex) (v : Byte) (s : State) : State :=
  { s with obs := s.obs ++ [⟨tag, i, v⟩] }

/-- The debug record of LDI, MUL and ADD: after the register write, with the new value of `x[i]`, only
when `DEBUG_TRACE` is true (R173). -/
def State.debugEmit (tag : Mnemonic) (i : RegIndex) (s : State) : State :=
  if s.params.debugTrace then s.emit tag i (s.readReg i) else s

/-! ### Taking an error, and completing an instruction -/

/-- `raise E(info)`: the entry every error of this machine takes (R195). There is no return from it
(R197). -/
def State.raise (e : Fault) (s : State) : State :=
  { s with fault := some e, clockRunning := false }

/-- The end of an instruction's cycle (R111, R116): the handler's error is raised in the state `s` the
cycle started from, and otherwise the program counter advances past the opcode `ir`. -/
def State.finish (ir : Byte) (handled : Except Fault State) (s : State) : State :=
  match handled with
  | .ok t => t.advance ir
  | .error e => s.raise e

end Sys2Proof.Machine
end

