-- ==== Sys2Proof/Machine/Operands.lean ====
section
/-! DEFINITION. The operand forms (R84): a register index, checked as a whole byte, and an immediate. There are no
others. -/

namespace Sys2Proof.Machine

/-- An operand byte used as a register index: the whole byte must be in `0..7`, else
`RegisterIndexOutOfRange` (R22, R193). -/
def registerOperand (a : Byte) : Except Fault RegIndex :=
  if h : a.toNat < 8 then .ok ⟨a.toNat, h⟩ else .error (.registerIndexOutOfRange a)

/-- An operand byte used as an immediate: the whole byte, unsigned, never checked or extended (R84, R160). -/
def immediateOperand (b : Byte) : Nat := b.toNat

/-- A handler whose one register operand is `a`: the index is checked before the handler `k` does
anything (R22, R114). -/
def withRegister (a : Byte) (k : RegIndex → State) : Except Fault State :=
  match registerOperand a with
  | .ok i => .ok (k i)
  | .error e => .error e

/-- A handler with two register operands: `a` is checked first, then `b`, then the handler `k` runs
(R144, D7). -/
def withRegisters (a b : Byte) (k : RegIndex → RegIndex → State) : Except Fault State :=
  match registerOperand a with
  | .error e => .error e
  | .ok i => withRegister b (k i)

end Sys2Proof.Machine
end

