-- ==== Sys2Proof/Machine/Flags.lean ====
section
/-! DEFINITION. The halt flag, the status computed from it and the error record, and the cycle gate (R28-R30, R110).
The machine has no other flag: there is no flags register and no condition code (R31). -/

namespace Sys2Proof.Machine

/-- Raise the halt flag and stop the clock: HLT's handler (R28, R180). -/
def State.raiseHalt (s : State) : State :=
  { s with halt := true, clockRunning := false }

/-- The status of the engine (R30). -/
inductive Status where
  | running | halted | faulted
  deriving DecidableEq, Repr

/-- FAULTED when `fault` is not none, otherwise HALTED when `halt` is true, otherwise RUNNING (R30). -/
def State.status (s : State) : Status :=
  match s.fault with
  | some _ => .faulted
  | none => if s.halt then .halted else .running

/-- The cycle gate: a tick runs a cycle if and only if the clock runs and the status is RUNNING (R110). -/
def State.gateOpen (s : State) : Bool :=
  s.clockRunning && decide (s.status = .running)

/-- The code of an error record (R190). -/
def Fault.code : Fault → Nat
  | .unknownOpcode _ => 1
  | .outOfBoundsAccess _ => 2
  | .registerIndexOutOfRange _ => 3

end Sys2Proof.Machine
end

