-- ==== Sys2Proof/Machine/Arith.lean ====
section
/-! DEFINITION. The ALU (R140-R142), the doubling of ADD (R146), and the instructions ADD (R145) and MUL (R144). -/

namespace Sys2Proof.Machine

/-- The ALU's operation tags: MUL is the only one there is (R142). -/
inductive AluOp where
  | mul
  deriving DecidableEq, Repr

/-- `ALU(op, a, b)`: a pure function of an operation tag and two values (R140, R141). -/
def alu : AluOp → Byte → Byte → Byte
  | .mul, a, b => BitVec.ofNat 8 (a.toNat * b.toNat)

/-- `dbl8(a) = (2*a) mod 256`, outside the ALU (R146, R8). -/
def dbl8 (a : Byte) : Byte := BitVec.ofNat 8 (2 * a.toNat)

/-- ADD's handler: double one register in place, then the debug record (R145, R173). -/
def handleAdd (a : Byte) (s : State) : Except Fault State :=
  withRegister a fun i => (s.writeReg i (dbl8 (s.readReg i)).toNat).debugEmit .add i

/-- ADD. The program counter advances by the encoded length 1, onto the operand byte (R88, R145). -/
def execAdd (a : Byte) (s : State) : Host.Outcome State Fault Refusal :=
  .next (s.finish (opcodeByte .add) (handleAdd a s))

/-- MUL's handler: both sources are read before the destination `x[A]` is written, then the debug
record (R144, R173). -/
def handleMul (a b : Byte) (s : State) : Except Fault State :=
  withRegisters a b fun i j =>
    (s.writeReg i (alu .mul (s.readReg i) (s.readReg j)).toNat).debugEmit .mul i

/-- MUL (R144). -/
def execMul (a b : Byte) (s : State) : Host.Outcome State Fault Refusal :=
  .next (s.finish (opcodeByte .mul) (handleMul a b s))

end Sys2Proof.Machine
end

