-- ==== Sys2Proof/Machine/LoadImmediate.lean ====
section
/-! DEFINITION. The instruction LDI (R160). There are no loads and stores (R161). -/

namespace Sys2Proof.Machine

/-- LDI's handler: `x[A] <- B`, then the debug record (R160, R173). -/
def handleLdi (a b : Byte) (s : State) : Except Fault State :=
  withRegister a fun i => (s.writeReg i (immediateOperand b)).debugEmit .ldi i

/-- LDI (R160). -/
def execLdi (a b : Byte) (s : State) : Host.Outcome State Fault Refusal :=
  .next (s.finish (opcodeByte .ldi) (handleLdi a b s))

end Sys2Proof.Machine
end

