-- ==== Sys2Proof/Machine/Observe.lean ====
section
/-! DEFINITION. The observation instructions PRN (R170) and CALL (R171), which differ in the record's tag only. -/

namespace Sys2Proof.Machine

/-- Report the register named by `a` under the name `tag` (R170, R171). -/
def reportRegister (tag : Mnemonic) (a : Byte) (s : State) : Except Fault State :=
  withRegister a fun i => s.emit tag i (s.readReg i)

/-- PRN (R170). -/
def execPrn (a : Byte) (s : State) : Host.Outcome State Fault Refusal :=
  .next (s.finish (opcodeByte .prn) (reportRegister .prn a s))

/-- CALL: a reporting-only stub that transfers no control (R171). -/
def execCall (a : Byte) (s : State) : Host.Outcome State Fault Refusal :=
  .next (s.finish (opcodeByte .call) (reportRegister .call a s))

end Sys2Proof.Machine
end

