-- ==== Sys2Proof/Machine/System.lean ====
section
/-! DEFINITION. The one system instruction, HLT (R180, R181). -/

namespace Sys2Proof.Machine

/-- HLT: raise the halt flag and stop the clock; the cycle still advances the program counter (R115,
R180, D29: log entry 10). It has no error of its own. -/
def execHlt (s : State) : Host.Outcome State Fault Refusal :=
  .next (s.finish (opcodeByte .hlt) (.ok s.raiseHalt))

end Sys2Proof.Machine
end

