-- ==== Sys2Proof/Machine/Dispatch.lean ====
section
/-! DEFINITION. The meaning of each instruction: handler, error entry and PC advance (R111 steps 4 to 6, R113). -/

namespace Sys2Proof.Machine

/-- One arm per instruction of the opcode map (R87). -/
def exec (i : Instr) (s : State) : Host.Outcome State Fault Refusal :=
  match i with
  | .hlt => Sys2Proof.Machine.execHlt s
  | .add a => Sys2Proof.Machine.execAdd a s
  | .prn a => Sys2Proof.Machine.execPrn a s
  | .call a => Sys2Proof.Machine.execCall a s
  | .ldi a b => Sys2Proof.Machine.execLdi a b s
  | .mul a b => Sys2Proof.Machine.execMul a b s

end Sys2Proof.Machine
end

