-- ==== Sys2Proof/Machine/Cycle.lean ====
section
/-! DEFINITION. The instruction cycle (R111) and the tick (R110), and how a word is placed where the next cycle
fetches it. -/

namespace Sys2Proof.Machine

/-- Steps 1 and 2: three reads at `pc`, `pc+1`, `pc+2` in this order, whatever the opcode; the first bad
one is the error (R57, R85, R112). -/
def State.fetch (s : State) : Except Fault Descriptor :=
  match s.memRead s.pc with
  | .error e => .error e
  | .ok ir =>
    match s.memRead (s.pc + 1) with
    | .error e => .error e
    | .ok a =>
      match s.memRead (s.pc + 2) with
      | .error e => .error e
      | .ok b => .ok ⟨ir, a, b⟩

/-- The error a rejected descriptor raises: `UnknownOpcode(ir)` (R113, R191). -/
def unknownOpcodeOf (d : Descriptor) : Fault := .unknownOpcode d.ir

/-- One cycle (R111): fetch, decode and dispatch, execute; an error before the handler is raised at
once (R116). -/
def State.cycle (s : State) : Host.Outcome State Fault Refusal :=
  match s.fetch with
  | .error e => .next (s.raise e)
  | .ok d =>
    match decode d with
    | .error _ => .next (s.raise (unknownOpcodeOf d))
    | .ok i => exec i s

/-- One tick (R110, R121): a cycle if the gate is open, otherwise nothing at all. -/
def State.tick (s : State) : Host.Outcome State Fault Refusal :=
  if s.gateOpen then s.cycle else .next s

/-- The three bytes of `d` stored at `pc`, `pc+1` and `pc+2`, memory large enough to hold them, and the
gate opened: what the next tick needs to run the instruction of `d` (log entry 6). -/
def State.placeAtPc (d : Descriptor) (s : State) : State :=
  { s with
    mem := ((s.mem.set s.pc d.ir).set (s.pc + 1) d.a).set (s.pc + 2) d.b
    params := { s.params with memSize := max s.params.memSize (s.pc + 3) }
    halt := false
    fault := none
    clockRunning := true }

end Sys2Proof.Machine
end

