-- ==== Sys2Proof/Machine/Step.lean ====
section
/-! DEFINITION. The step of the machine: one tick of the clock (R110, R117). -/

namespace Sys2Proof.Machine

/-- One step is one tick (R110). -/
def step (s : State) : Host.Outcome State Fault Refusal := s.tick

/-- `s` with the opcode-table word `w` of `nbits` bits where the next step fetches, and the clock
started: it stands for the host's `poke`s and `start()` (R231; log entry 6). -/
def State.withFetchWord (s : State) (nbits w : Nat) : State :=
  s.placeAtPc (tableDescriptor nbits w)

end Sys2Proof.Machine
end

