-- ==== Sys2Proof/Machine/Events.lean ====
section
/-! DEFINITION. What the host can do to the machine between cycles (R37, R240): `poke`, `start()`, `stop()`, reset and
delivering a tick. -/

namespace Sys2Proof.Machine

/-- The interactions of R240. Reading the state has no effect, and writing `x`, `pc` or `halt` directly
has no meaning given (U17): neither is an event. -/
inductive HostEvent where
  | poke (addr value : Nat)
  | start
  | stop
  | tick
  | reset
  deriving DecidableEq, Repr

/-- `start()`: sets `clock_running`, whatever the status; in HALTED or FAULTED no cycle runs all the
same (R36, R240, D10: log entry 8). -/
def State.start (s : State) : State := { s with clockRunning := true }

/-- `stop()`: clears `clock_running` and changes nothing else; stopping twice is no error (R36, R199). -/
def State.stop (s : State) : State := { s with clockRunning := false }

/-- `poke(address, value)`: the pass-through to `MemWrite`, legal only while the clock is stopped. An
address outside memory is refused to the host and the engine's `fault` is untouched (R66, R240). -/
def State.poke (addr value : Nat) (s : State) : Host.Outcome State Fault Refusal :=
  if s.clockRunning then .refused .pokeWhileRunning
  else
    match s.memWrite addr value with
    | .ok t => .next t
    | .error _ => .refused (.pokeOutOfRange addr)

/-- The reset event: every field to its reset value, memory untouched, the parameters kept (R230, R68). -/
def State.resetEvent (s : State) : State := State.create s.params s.mem

/-- One host event. -/
def hostEvent (e : HostEvent) (s : State) : Host.Outcome State Fault Refusal :=
  match e with
  | .poke addr value => s.poke addr value
  | .start => .next s.start
  | .stop => .next s.stop
  | .tick => step s
  | .reset => .next s.resetEvent

/-- The state after a host event; a refused event leaves the state as it was (R66). -/
def afterEvent (e : HostEvent) (s : State) : State :=
  match hostEvent e s with
  | .next t => t
  | .fault _ => s
  | .refused _ => s

/-- The state after a list of host events, first event first. -/
def afterEvents : List HostEvent → State → State
  | [], s => s
  | e :: es, s => afterEvents es (afterEvent e s)

end Sys2Proof.Machine
end

