-- ==== Sys2Proof/Machine/Pseudocode.lean ====
section
/-! DEFINITION. The cycle written a second time, flat, as the pseudocode of R111 and of the handler rules R144, R145,
R160, R170, R171 and R180 stands in the spec: over raw bytes, with no instruction type and no decoder between. The
machine does not use it; a statement says that the two agree. -/

namespace Sys2Proof.Machine

/-- `fault <- E(info)`, `clock_running <- false`, nothing else (R116, R121). -/
def Pseudo.fail (s : State) (e : Fault) : State := { s with fault := some e, clockRunning := false }

/-- The records of R174's column for `DEBUG_TRACE`: one record, or none. -/
def Pseudo.debugRecord (s : State) (r : Record) : List Record :=
  if s.params.debugTrace then [r] else []

/-- Steps 3 to 6 of R111 for the fetched bytes `ir`, `A` and `B`. -/
def Pseudo.dispatch (s : State) (ir A B : Byte) : State :=
  let pc' := s.pc + ir.toNat / 64 + 1
  if ir = 1 then { s with halt := true, clockRunning := false, pc := pc' }
  else if ir = 24 then
    if h : A.toNat < 8 then
      let v : Byte := BitVec.ofNat 8 ((2 * s.x[A.toNat].toNat) % 256)
      { s with x := s.x.set A.toNat v, pc := pc', obs := s.obs ++ Pseudo.debugRecord s ⟨.add, ⟨A.toNat, h⟩, v⟩ }
    else Pseudo.fail s (.registerIndexOutOfRange A)
  else if ir = 67 then
    if h : A.toNat < 8 then { s with pc := pc', obs := s.obs ++ [⟨.prn, ⟨A.toNat, h⟩, s.x[A.toNat]⟩] }
    else Pseudo.fail s (.registerIndexOutOfRange A)
  else if ir = 72 then
    if h : A.toNat < 8 then { s with pc := pc', obs := s.obs ++ [⟨.call, ⟨A.toNat, h⟩, s.x[A.toNat]⟩] }
    else Pseudo.fail s (.registerIndexOutOfRange A)
  else if ir = 153 then
    if h : A.toNat < 8 then
      { s with x := s.x.set A.toNat B, pc := pc', obs := s.obs ++ Pseudo.debugRecord s ⟨.ldi, ⟨A.toNat, h⟩, B⟩ }
    else Pseudo.fail s (.registerIndexOutOfRange A)
  else if ir = 170 then
    if h : A.toNat < 8 then
      if k : B.toNat < 8 then
        let v : Byte := BitVec.ofNat 8 ((s.x[A.toNat].toNat * s.x[B.toNat].toNat) % 256)
        { s with x := s.x.set A.toNat v, pc := pc', obs := s.obs ++ Pseudo.debugRecord s ⟨.mul, ⟨A.toNat, h⟩, v⟩ }
      else Pseudo.fail s (.registerIndexOutOfRange B)
    else Pseudo.fail s (.registerIndexOutOfRange A)
  else Pseudo.fail s (.unknownOpcode ir)

/-- `CycleResult(s)` (R121): steps 1 and 2 of R111, then the rest. -/
def Pseudo.cycle (s : State) : State :=
  if s.pc ≥ s.params.memSize then Pseudo.fail s (.outOfBoundsAccess s.pc)
  else if s.pc + 1 ≥ s.params.memSize then Pseudo.fail s (.outOfBoundsAccess (s.pc + 1))
  else if s.pc + 2 ≥ s.params.memSize then Pseudo.fail s (.outOfBoundsAccess (s.pc + 2))
  else Pseudo.dispatch s (s.mem.get s.pc) (s.mem.get (s.pc + 1)) (s.mem.get (s.pc + 2))

/-- `Tick(s)` (R121). -/
def Pseudo.tick (s : State) : State :=
  if s.clockRunning = true ∧ s.halt = false ∧ s.fault = none then Pseudo.cycle s else s

end Sys2Proof.Machine
end

