-- ==== Sys2Proof/Safety.lean ====
section
/-! DEFINITION. The terms in which claims are made: a completed cycle, a faulting cycle, the engine's own part of the
state, and the invariant of every reachable state. -/

namespace Sys2Proof.Machine

/-- The step from `s` to `t` is a completed cycle: the gate was open and no error was raised (R7's
glossary, R111). -/
abbrev CompletedCycle (s t : State) : Prop :=
  s.gateOpen = true ∧ step s = .next t ∧ t.fault = none

/-- The step from `s` to `t` is a faulting cycle, aborted by the error `e` (R116). -/
abbrev FaultingCycle (s : State) (e : Fault) (t : State) : Prop :=
  s.gateOpen = true ∧ step s = .next t ∧ t.fault = some e

/-- The good end of a run: HALTED with no error recorded (R120, D22). -/
abbrev GoodEnd (s : State) : Prop := s.status = .halted

/-- Two states agree on everything the engine owns: registers, `pc`, `halt` and `fault` (R20). -/
abbrev SameEngine (s t : State) : Prop :=
  s.x = t.x ∧ s.pc = t.pc ∧ s.halt = t.halt ∧ s.fault = t.fault

/-- Every byte of memory reads the same in both states. -/
abbrev SameMemory (s t : State) : Prop := ∀ addr : Nat, t.memRead addr = s.memRead addr

/-- The records a register-writing instruction appends (R174): one when `DEBUG_TRACE` is true, else
none. -/
def debugRecords (p : Params) (tag : Mnemonic) (i : RegIndex) (v : Byte) : List Record :=
  if p.debugTrace then [⟨tag, i, v⟩] else []

/-- What an error record of a reachable state can be: an unknown opcode outside the map (R191), a
register index above 7 (R193), both raised where three bytes can be fetched, or the out-of-bounds
address `MEM_SIZE` itself, raised where they cannot (R192). -/
def State.faultRecordOk (s : State) : Bool :=
  match s.fault with
  | none => true
  | some (.unknownOpcode ir) => (Sys2Proof.dispatch ir).isNone && decide (s.pc + 2 < s.params.memSize)
  | some (.outOfBoundsAccess addr) =>
    decide (addr = s.params.memSize) && decide (s.params.memSize ≤ s.pc + 2)
  | some (.registerIndexOutOfRange i) => decide (8 ≤ i.toNat) && decide (s.pc + 2 < s.params.memSize)

/-- What a record of the observation channel can be: no HLT, and only PRN and CALL without
`DEBUG_TRACE` (R174). -/
def State.recordOk (s : State) (r : Record) : Bool :=
  match r.tag with
  | .hlt => false
  | .prn | .call => true
  | .add | .ldi | .mul => s.params.debugTrace

/-- The invariant of every reachable state: `pc` within `0 .. MEM_SIZE` (R27), never halted and faulted
at once (R30), the error record as R191 to R193 allow, every record as R174 allows, and memory in its
canonical form within `MEM_SIZE` (R50). -/
structure Inv (s : State) : Prop where
  pc_le : s.pc ≤ s.params.memSize
  halt_or_fault : s.halt = true → s.fault = none
  fault_ok : s.faultRecordOk = true
  obs_ok : ∀ r ∈ s.obs, s.recordOk r = true
  mem_wf : s.mem.wf
  mem_within : s.mem.within s.params.memSize

end Sys2Proof.Machine
end

