-- ==== Sys2Proof/Certificates/Slice0/Obligations.lean ====
section
/-! DEFINITION. The statements for the provers, in the order of OBLIGATIONS.json. Each docstring names the rules of
spec/ it formalises. -/

open Sys2Proof Sys2Proof.Machine

/-! ### Encoding (30_encoding.md) -/

/-- Decoding the bytes of any instruction, followed by any bytes, gives the instruction back, with every
operand at every value (R80, R87, R92); the bytes that follow have no effect (R85). -/
def Obligations.DecodeEncodeRoundTrip : Prop :=
  ∀ (i : Instr) (rest : List Byte), 2 ≤ rest.length → decodeBytes (encode i ++ rest) = .ok i

/-- Each word has one meaning: the bytes of whatever instruction a descriptor decodes to are the first
bytes of that descriptor (R86, R87). -/
def Obligations.DecodedDescriptorReencodes : Prop :=
  ∀ (d : Descriptor) (i : Instr), decode d = .ok i → encode i <+: [d.ir, d.a, d.b]

/-- The length formula for all 256 byte values and its table of ranges (R82). -/
def Obligations.LengthFormulaForAllOpcodes : Prop :=
  ∀ o : Byte,
    encodedOperandCount o = o.toNat >>> 6 ∧ decodeLength o = (o.toNat >>> 6) + 1 ∧
      (o.toNat ≤ 63 → decodeLength o = 1) ∧ (64 ≤ o.toNat → o.toNat ≤ 127 → decodeLength o = 2) ∧
      (128 ≤ o.toNat → o.toNat ≤ 191 → decodeLength o = 3) ∧ (192 ≤ o.toNat → decodeLength o = 4)

/-- Dispatch is on the full opcode byte: the six values decode whatever follows, and each of the other
250 is an unknown opcode whatever follows (R86, R89), opcode 0, opcode 65 and `192..255` (R90) among
them. -/
def Obligations.DispatchOnWholeOpcodeByte : Prop :=
  ∀ o a b : Byte,
    (o ∈ ([1, 24, 67, 72, 153, 170] : List Byte) → ∃ i, decode ⟨o, a, b⟩ = .ok i) ∧
      (o ∉ ([1, 24, 67, 72, 153, 170] : List Byte) → decode ⟨o, a, b⟩ = .error (.unknownOpcode o))

/-- One word of each instruction, written out from the encodings of R87 and R92. -/
def Obligations.SpecWordsDecode : Prop :=
  decode ⟨0b00000001#8, 99#8, 250#8⟩ = .ok .hlt ∧
    decode ⟨0b00011000#8, 0b00000111#8, 0#8⟩ = .ok (.add 7) ∧
    decode ⟨0b01000011#8, 0b00000101#8, 1#8⟩ = .ok (.prn 5) ∧
    decode ⟨0b01001000#8, 0b00000010#8, 1#8⟩ = .ok (.call 2) ∧
    decode ⟨0b10011001#8, 0b00000011#8, 0b11001000#8⟩ = .ok (.ldi 3 200) ∧
    decode ⟨0b10101010#8, 0b00000110#8, 0b00000111#8⟩ = .ok (.mul 6 7) ∧
    decode ⟨0b01000001#8, 0#8, 0#8⟩ = .error (.unknownOpcode 65)

/-! ### The cycle (40_cycle.md) -/

/-- A step runs the decoded instruction: when the gate is open and the three bytes at `pc`, `pc+1` and
`pc+2` are inside memory and decode to `i`, the step is `exec i`, with nothing around it; the PC advance
is part of `exec` (R111). -/
def Obligations.StepRunsDecodedInstruction : Prop :=
  ∀ (s : State) (i : Instr), s.gateOpen = true → s.pc + 2 < s.params.memSize →
    decode ⟨s.mem.get s.pc, s.mem.get (s.pc + 1), s.mem.get (s.pc + 2)⟩ = .ok i → step s = exec i s

/-- A tick runs a cycle if and only if the clock runs and the status is RUNNING; otherwise it changes
nothing at all (R110). -/
def Obligations.TickRunsCycleOnlyThroughGate : Prop :=
  ∀ s : State,
    (s.clockRunning = true → s.halt = false → s.fault = none → step s = s.cycle) ∧
      (s.clockRunning = false ∨ s.halt = true ∨ s.fault ≠ none → step s = .next s)

/-- The machine is the spec's: every step, from every state, is `Tick(s)` of R121, with the cycle as the
flat pseudocode of R111 and of the handler rules gives it. That `pc` moves after HLT is the spec's reading D29
(log entry 10, DEDUCED), that ADD moves it by 1 rests on D15 (log entry 9), and that a faulting cycle keeps it
on D4 (log entry 5). -/
def Obligations.StepIsTheSpecsTick : Prop :=
  ∀ s : State, step s = .next (Pseudo.tick s)

/-- One cycle reports at most one error, the first of R194's order; the state is otherwise as it was. The order
is the spec's decisions D6 and D7, and that `pc` is kept is D4 (log entry 5). -/
def Obligations.ErrorPriority : Prop :=
  ∀ s : State, s.gateOpen = true →
    let n := s.params.memSize
    let ir := s.mem.get s.pc
    let A := s.mem.get (s.pc + 1)
    let B := s.mem.get (s.pc + 2)
    let raised (e : Fault) := Host.Outcome.next (ρ := Refusal) (φ := Fault) { s with fault := some e, clockRunning := false }
    (n ≤ s.pc → step s = raised (.outOfBoundsAccess s.pc)) ∧
      (s.pc < n → n ≤ s.pc + 1 → step s = raised (.outOfBoundsAccess (s.pc + 1))) ∧
      (s.pc + 1 < n → n ≤ s.pc + 2 → step s = raised (.outOfBoundsAccess (s.pc + 2))) ∧
      (s.pc + 2 < n → ir ∉ ([1, 24, 67, 72, 153, 170] : List Byte) → step s = raised (.unknownOpcode ir)) ∧
      (s.pc + 2 < n → ir ∈ ([24, 67, 72, 153, 170] : List Byte) → 7 < A.toNat →
        step s = raised (.registerIndexOutOfRange A)) ∧
      (s.pc + 2 < n → ir = 170 → A.toNat ≤ 7 → 7 < B.toNat → step s = raised (.registerIndexOutOfRange B))

/-- A faulting cycle changes nothing except `fault` and `clock_running` (R116). That `pc` is kept is the spec's
decision D4 (log entry 5). -/
def Obligations.FaultingCycleChangesOnlyFaultAndClock : Prop :=
  ∀ (s t : State) (e : Fault), FaultingCycle s e t →
    t.x = s.x ∧ t.pc = s.pc ∧ t.halt = false ∧ t.mem = s.mem ∧ t.obs = s.obs ∧ t.params = s.params ∧
      t.fault = some e ∧ t.clockRunning = false

/-- A completed cycle advances `pc` by `(ir >> 6) + 1` for the opcode byte at `pc`, per instruction by
1, 1, 2, 2, 3 and 3; a faulting cycle does not change `pc`; and besides cycles and reset nothing
does (R26, R115). That `pc` moves by 1 after HLT is the spec's reading D29 (log entry 10, DEDUCED), that ADD
moves it by 1 rests on D15 (log entry 9), and that a faulting cycle keeps it on D4 (log entry 5). -/
def Obligations.PcAdvancesByEncodedLength : Prop :=
  (∀ s t : State, CompletedCycle s t →
    t.pc = s.pc + ((s.mem.get s.pc).toNat >>> 6) + 1 ∧
      (s.mem.get s.pc = 1 → t.pc = s.pc + 1) ∧ (s.mem.get s.pc = 24 → t.pc = s.pc + 1) ∧
      (s.mem.get s.pc = 67 → t.pc = s.pc + 2) ∧ (s.mem.get s.pc = 72 → t.pc = s.pc + 2) ∧
      (s.mem.get s.pc = 153 → t.pc = s.pc + 3) ∧ (s.mem.get s.pc = 170 → t.pc = s.pc + 3)) ∧
    (∀ (s t : State) (e : Fault), FaultingCycle s e t → t.pc = s.pc) ∧
    (∀ (ev : HostEvent) (s : State), ev ≠ .tick → ev ≠ .reset → (afterEvent ev s).pc = s.pc)

/-- No step writes memory or changes a parameter: `mem` is constant while the clock runs (R52, R60,
R68). -/
def Obligations.StepLeavesMemoryUnchanged : Prop :=
  ∀ s t : State, step s = .next t → t.mem = s.mem ∧ t.params = s.params ∧ SameMemory s t

/-- Which registers are read and written (R24). Written: a step changes no register but `x[A]`, and only when
it completes ADD, LDI or MUL. Read: a register an instruction does not read can hold any value, and the
instruction does the same, overwriting that register if it is its destination and leaving it otherwise.
No host event but a tick or reset changes a register. -/
def Obligations.RegistersReadAndWritten : Prop :=
  (∀ (s t : State) (r : RegIndex), step s = .next t → t.readReg r ≠ s.readReg r →
    CompletedCycle s t ∧ s.mem.get s.pc ∈ ([24, 153, 170] : List Byte) ∧ (s.mem.get (s.pc + 1)).toNat = r.val) ∧
    (∀ (i : Instr) (s t : State) (r : RegIndex) (v : Byte), (∀ a ∈ i.sourceOperands, a.toNat ≠ r.val) →
      exec i s = .next t →
        exec i { s with x := s.x.set r v } =
          .next (if ∃ a ∈ i.destinationOperands, a.toNat = r.val then t else { t with x := t.x.set r v })) ∧
    (∀ (ev : HostEvent) (s : State), ev ≠ .tick → ev ≠ .reset → (afterEvent ev s).x = s.x)

/-- Only a completed HLT raises the halt flag (R28, R180), and it reports no error (R182). That `pc` moves by 1
is the spec's reading D29 (log entry 10, DEDUCED). -/
def Obligations.OnlyHltRaisesHalt : Prop :=
  ∀ s t : State, step s = .next t → s.halt = false → t.halt = true →
    s.mem.get s.pc = 1 ∧ CompletedCycle s t ∧ t.pc = s.pc + 1 ∧ t.clockRunning = false ∧ t.x = s.x ∧ t.obs = s.obs

/-- What a completed cycle emits, for both settings of `DEBUG_TRACE`: the table of R174. -/
def Obligations.RecordsOfACompletedCycle : Prop :=
  ∀ s t : State, CompletedCycle s t →
    (s.mem.get s.pc = 1 → t.obs = s.obs) ∧
      ∀ i : RegIndex, (s.mem.get (s.pc + 1)).toNat = i.val →
        (s.mem.get s.pc = 24 → t.obs = s.obs ++ debugRecords s.params .add i (t.readReg i)) ∧
          (s.mem.get s.pc = 67 → t.obs = s.obs ++ [⟨.prn, i, s.readReg i⟩]) ∧
          (s.mem.get s.pc = 72 → t.obs = s.obs ++ [⟨.call, i, s.readReg i⟩]) ∧
          (s.mem.get s.pc = 153 → t.obs = s.obs ++ debugRecords s.params .ldi i (s.mem.get (s.pc + 2))) ∧
          (s.mem.get s.pc = 170 → t.obs = s.obs ++ debugRecords s.params .mul i (t.readReg i))

/-- The observation channel is append-only, and nothing on it is lost (R35, R172): one step appends at
most one record. -/
def Obligations.ObservationIsAppendOnly : Prop :=
  ∀ s t : State, step s = .next t → t.obs = s.obs ∨ ∃ r : Record, t.obs = s.obs ++ [r]

/-- A cycle completes exactly when its three bytes are inside memory and decode to an instruction whose
register operands are all in `0..7`: the three errors are the only conditions under which the engine
refuses to execute (R201). -/
def Obligations.CycleCompletesExactlyWhenNoErrorApplies : Prop :=
  ∀ s : State, s.gateOpen = true →
    ((∃ t, CompletedCycle s t) ↔
      s.pc + 2 < s.params.memSize ∧
        ∃ i, decode ⟨s.mem.get s.pc, s.mem.get (s.pc + 1), s.mem.get (s.pc + 2)⟩ = .ok i ∧ i.wellFormed = true)

/-- Every step answers a next state: no step ends in a fault outcome or a refusal (R110, R195, R201; the
model's convention of log entry 4). -/
def Obligations.EveryStepAnswersANextState : Prop :=
  ∀ s : State, ∃ t, step s = .next t

/-- The over-fetch hazard (R235): with the gate open, no instruction executes from `MEM_SIZE-2` or
`MEM_SIZE-1`, not even HLT, and at `MEM_SIZE-3` a HLT does. That this HLT moves `pc` by 1 is the
spec's reading D29 (log entry 10, DEDUCED). -/
def Obligations.OverFetchAtTheTopOfMemory : Prop :=
  (∀ s : State, s.gateOpen = true → s.pc < s.params.memSize → s.params.memSize ≤ s.pc + 2 →
    step s = .next { s with fault := some (.outOfBoundsAccess s.params.memSize), clockRunning := false }) ∧
    (∀ s : State, s.gateOpen = true → s.pc + 3 = s.params.memSize → s.mem.get s.pc = 1 →
      step s = .next { s with halt := true, clockRunning := false, pc := s.pc + 1 })

/-- ADD is followed by the execution of its own operand byte (R236): operand 1 halts the engine two bytes
on (provided `p+3` is a valid address), an operand of 0 or 2 to 7 is an unknown opcode, and an operand of
8 or more has already faulted. It rests on ADD's length 1 (D15, U15: log entry 9), on `pc` past the HLT in the
halted state (D29: log entry 10, DEDUCED) and on `pc` kept by a faulting cycle (D4: log entry 5). With
`p+3 = MEM_SIZE` the second cycle is `ErrorPriority`'s and `OverFetchAtTheTopOfMemory`'s. -/
def Obligations.AddOperandIsTheNextOpcode : Prop :=
  ∀ s : State, s.gateOpen = true → s.pc + 2 < s.params.memSize → s.mem.get s.pc = 24 →
    let a := s.mem.get (s.pc + 1)
    (a = 1 → s.pc + 3 < s.params.memSize →
      ∃ t, core.run 2 s = .next t ∧ t.status = .halted ∧ t.pc = s.pc + 2) ∧
      (a ∈ ([0, 2, 3, 4, 5, 6, 7] : List Byte) → s.pc + 3 < s.params.memSize →
        ∃ t, core.run 2 s = .next t ∧ t.fault = some (.unknownOpcode a) ∧ t.halt = false ∧ t.pc = s.pc + 1) ∧
      (8 ≤ a.toNat →
        ∃ t, core.run 1 s = .next t ∧ t.fault = some (.registerIndexOutOfRange a) ∧ t.halt = false ∧ t.pc = s.pc)

/-- Every run ends: with the clock running, after at most one step per start address `pc .. MEM_SIZE-3`
and one more the engine is HALTED or FAULTED, and every further step leaves that state as it is (R120,
R242). -/
def Obligations.EveryRunEnds : Prop :=
  ∀ s : State, s.clockRunning = true →
    ∃ (k : Nat) (t : State), k ≤ (s.params.memSize - 2 - s.pc) + 1 ∧ (t.status = .halted ∨ t.status = .faulted) ∧
      ∀ n, k ≤ n → core.run n s = .next t

/-- A cycle stops the clock exactly when it ends the run, and then either `halt` is true or an error is
recorded, never both: what the engine owes the host (R240, R30). -/
def Obligations.ClockStopsExactlyAtTheEnd : Prop :=
  ∀ s t : State, s.gateOpen = true → step s = .next t →
    (t.clockRunning = false ↔ t.status ≠ .running) ∧
      (t.clockRunning = false → (GoodEnd t ∧ t.halt = true ∧ t.fault = none) ∨ (t.halt = false ∧ t.fault ≠ none))

/-- The step reads no memory but the three bytes at `pc`, `pc+1` and `pc+2` (R57, R118): with any other
memory that agrees there, everything else comes out the same. -/
def Obligations.OnlyThreeBytesMatter : Prop :=
  ∀ (s t : State) (m : Memory), (∀ k ≤ 2, m.get (s.pc + k) = s.mem.get (s.pc + k)) →
    step s = .next t → step { s with mem := m } = .next { t with mem := m }

/-- `DEBUG_TRACE` and what was printed before change `obs` only: registers, `pc`, `halt`, `fault` and the
clock come out the same for both settings (R173, R35). -/
def Obligations.DebugTraceChangesObservationsOnly : Prop :=
  ∀ (s t : State) (d : Bool) (o : List Record), step s = .next t →
    ∃ o' : List Record,
      step { s with params := { s.params with debugTrace := d }, obs := o } =
        .next { t with params := { t.params with debugTrace := d }, obs := o' }

/-! ### The six instructions -/

/-- HLT (R180): for every state, `halt` is set, the clock stops and `pc` moves past the one byte; nothing
else changes. That `pc` moves is the spec's reading D29 (log entry 10, DEDUCED). -/
def Obligations.HltHalts : Prop :=
  encode .hlt = [1] ∧
    ∀ s : State, exec .hlt s = .next { s with halt := true, clockRunning := false, pc := s.pc + 1 }

/-- ADD (R145): doubles `x[A]` modulo 256 and advances `pc` by 1, with a debug record of the new value
only under `DEBUG_TRACE`; an index above 7 raises the error and changes nothing else. That ADD is opcode 24 and
moves `pc` by 1 only rests on D15 and the unaudited number of U15 (log entry 9). -/
def Obligations.AddDoublesRegister : Prop :=
  (∀ a : Byte, encode (.add a) = [24, a]) ∧
    (∀ (a : Byte) (s : State) (h : a.toNat < 8),
      let v : Byte := BitVec.ofNat 8 ((2 * s.x[a.toNat].toNat) % 256)
      exec (.add a) s =
        .next { s with
          x := s.x.set a.toNat v
          pc := s.pc + 1
          obs := s.obs ++ (if s.params.debugTrace then [⟨.add, ⟨a.toNat, h⟩, v⟩] else []) }) ∧
    (∀ (a : Byte) (s : State), 7 < a.toNat →
      exec (.add a) s = .next { s with fault := some (.registerIndexOutOfRange a), clockRunning := false })

/-- MUL (R144): `x[A]` becomes `x[A]*x[B]` modulo 256, both read before the write, and `pc` advances by 3,
with a debug record of the new value only under `DEBUG_TRACE`; a bad `A`, else a bad `B`, raises the error
and changes nothing else. -/
def Obligations.MulMultipliesRegisters : Prop :=
  (∀ a b : Byte, encode (.mul a b) = [170, a, b]) ∧
    (∀ (a b : Byte) (s : State) (h : a.toNat < 8) (_ : b.toNat < 8),
      let v : Byte := BitVec.ofNat 8 ((s.x[a.toNat].toNat * s.x[b.toNat].toNat) % 256)
      exec (.mul a b) s =
        .next { s with
          x := s.x.set a.toNat v
          pc := s.pc + 3
          obs := s.obs ++ (if s.params.debugTrace then [⟨.mul, ⟨a.toNat, h⟩, v⟩] else []) }) ∧
    (∀ (a b : Byte) (s : State), 7 < a.toNat →
      exec (.mul a b) s = .next { s with fault := some (.registerIndexOutOfRange a), clockRunning := false }) ∧
    (∀ (a b : Byte) (s : State), a.toNat < 8 → 7 < b.toNat →
      exec (.mul a b) s = .next { s with fault := some (.registerIndexOutOfRange b), clockRunning := false })

/-- LDI (R160): `x[A]` becomes the whole byte `B` whatever it held, and `pc` advances by 3, with a debug
record only under `DEBUG_TRACE`; an index above 7 raises the error and changes nothing else, and `B` is
never checked. -/
def Obligations.LdiLoadsImmediate : Prop :=
  (∀ a b : Byte, encode (.ldi a b) = [153, a, b]) ∧
    (∀ (a b : Byte) (s : State) (h : a.toNat < 8),
      exec (.ldi a b) s =
        .next { s with
          x := s.x.set a.toNat b
          pc := s.pc + 3
          obs := s.obs ++ (if s.params.debugTrace then [⟨.ldi, ⟨a.toNat, h⟩, b⟩] else []) }) ∧
    (∀ (a b : Byte) (s : State), 7 < a.toNat →
      exec (.ldi a b) s = .next { s with fault := some (.registerIndexOutOfRange a), clockRunning := false })

/-- PRN (R170): appends the record `(PRN, A, x[A])` and advances `pc` by 2; an index above 7 raises the
error and emits nothing. -/
def Obligations.PrnEmitsRegister : Prop :=
  (∀ a : Byte, encode (.prn a) = [67, a]) ∧
    (∀ (a : Byte) (s : State) (h : a.toNat < 8),
      exec (.prn a) s =
        .next { s with pc := s.pc + 2, obs := s.obs ++ [⟨.prn, ⟨a.toNat, h⟩, s.x[a.toNat]⟩] }) ∧
    (∀ (a : Byte) (s : State), 7 < a.toNat →
      exec (.prn a) s = .next { s with fault := some (.registerIndexOutOfRange a), clockRunning := false })

/-- CALL (R171): appends the record `(CALL, A, x[A])` and advances `pc` by 2 whatever `x[A]` is: no
control transfer; an index above 7 raises the error and emits nothing. -/
def Obligations.CallOnlyReports : Prop :=
  (∀ a : Byte, encode (.call a) = [72, a]) ∧
    (∀ (a : Byte) (s : State) (h : a.toNat < 8),
      exec (.call a) s =
        .next { s with pc := s.pc + 2, obs := s.obs ++ [⟨.call, ⟨a.toNat, h⟩, s.x[a.toNat]⟩] }) ∧
    (∀ (a : Byte) (s : State), 7 < a.toNat →
      exec (.call a) s = .next { s with fault := some (.registerIndexOutOfRange a), clockRunning := false })

/-- Every instruction whose register operands are in `0..7` completes, in every state: it answers a next
state with no error of its own, no memory or parameter changed, and `pc` past its encoded length (R115,
R201). That HLT moves `pc` is the spec's reading D29 (log entry 10, DEDUCED), and ADD's length 1 rests on D15
(log entry 9). -/
def Obligations.WellFormedInstructionsComplete : Prop :=
  ∀ (i : Instr) (s : State), i.wellFormed = true →
    ∃ t, exec i s = .next t ∧ t.fault = s.fault ∧ t.mem = s.mem ∧ t.params = s.params ∧
      t.pc = s.pc + decodeLength (opcodeByte i.mnemonic)

/-- A register operand is the whole byte: whatever the instruction, the first operand above 7 is the error,
never masked to three bits, and nothing else changes (R22, R193, R239). -/
def Obligations.FirstBadRegisterOperandIsTheError : Prop :=
  ∀ (i : Instr) (s : State) (a : Byte), i.registerOperands.find? (fun b => decide (7 < b.toNat)) = some a →
    exec i s = .next { s with fault := some (.registerIndexOutOfRange a), clockRunning := false }

/-- The frame of HLT, PRN and CALL: no register changes and no byte of memory; PRN and CALL change no flag,
and HLT changes neither the error record nor the records; with a valid index PRN and CALL change neither
the error record nor the clock (R170, R171, R180). -/
def Obligations.RegisterPreservingInstructionsFrame : Prop :=
  ∀ (i : Instr) (s t : State), i.destinationOperands = [] → exec i s = .next t →
    t.x = s.x ∧ t.params = s.params ∧ SameMemory s t ∧
      (i = .hlt → t.fault = s.fault ∧ t.obs = s.obs) ∧
      (i ≠ .hlt → t.halt = s.halt ∧ (i.wellFormed = true → t.fault = s.fault ∧ t.clockRunning = s.clockRunning))

/-- The frame of ADD, LDI and MUL: no register changes but the destination `x[A]`; no flag and no byte of memory; `obs` only under `DEBUG_TRACE`; with valid indices the error
record and the clock are unchanged too (R144, R145, R160). -/
def Obligations.RegisterWritingInstructionsFrame : Prop :=
  ∀ (i : Instr) (s t : State), i.destinationOperands ≠ [] → exec i s = .next t →
    (∀ r : RegIndex, (∀ a ∈ i.destinationOperands, a.toNat ≠ r.val) → t.readReg r = s.readReg r) ∧
      t.halt = s.halt ∧ t.params = s.params ∧ SameMemory s t ∧
      (s.params.debugTrace = false → t.obs = s.obs) ∧
      (i.wellFormed = true → t.fault = s.fault ∧ t.clockRunning = s.clockRunning)

/-! ### The ALU and arithmetic (41_arith.md) -/

/-- The ALU's product is the low 8 bits of the product of the two unsigned values (R141). -/
def Obligations.AluMultipliesModulo256 : Prop :=
  ∀ a b : Byte, (alu .mul a b).toNat = (a.toNat * b.toNat) % 256 ∧ alu .mul a b = (a.setWidth 16 * b.setWidth 16).extractLsb' 0 8

/-- `dbl8(a)` is `(2*a) mod 256`, `a + a`, and `a` shifted left by one with bit 7 dropped and bit 0
cleared (R146). -/
def Obligations.DoublingIsAShift : Prop :=
  ∀ a : Byte, (dbl8 a).toNat = (2 * a.toNat) % 256 ∧ dbl8 a = a + a ∧ dbl8 a = a <<< 1 ∧
    (dbl8 a).getLsbD 0 = false

/-- Signedness does not matter: the low 8 bits of a product and of a doubling are the same whether the
inputs are read as unsigned or as two's-complement values (R143). -/
def Obligations.SignednessDoesNotMatter : Prop :=
  ∀ a b : Byte, alu .mul a b = BitVec.ofInt 8 (a.toInt * b.toInt) ∧ dbl8 a = BitVec.ofInt 8 (2 * a.toInt)

/-! ### Status, reset and the host (10_state.md, 60_exceptions.md, 70_reset_and_hazards.md) -/

/-- The status is a function of `halt` and `fault`, and HALTED and FAULTED are terminal: no further cycle
executes (R30). -/
def Obligations.StatusFromHaltAndFault : Prop :=
  ∀ s : State,
    (s.fault ≠ none → s.status = .faulted) ∧ (s.fault = none → s.halt = true → s.status = .halted) ∧
      (s.fault = none → s.halt = false → s.status = .running) ∧ (s.status ≠ .running → step s = .next s)

/-- HALTED and FAULTED are for ever: no list of host events without a reset, ticks and `start()` among
them, changes a register, `pc`, `halt`, `fault`, the records or the status (R110, R197). -/
def Obligations.TerminalStatusIsForever : Prop :=
  ∀ (es : List HostEvent) (s : State), HostEvent.reset ∉ es → s.status ≠ .running →
    SameEngine s (afterEvents es s) ∧ (afterEvents es s).obs = s.obs ∧ (afterEvents es s).status = s.status

/-- Only reset clears `halt` or `fault`, and `fault` never changes once set (R28, R29, R197, R230). -/
def Obligations.OnlyResetClearsHaltAndFault : Prop :=
  ∀ (ev : HostEvent) (s : State), ev ≠ .reset →
    (s.halt = true → (afterEvent ev s).halt = true) ∧
      (∀ e, s.fault = some e → (afterEvent ev s).fault = some e)

/-- The host's own events, `poke`, `start()` and `stop()`, leave the engine and the records alone (R24,
R36, R66, R199). -/
def Obligations.HostEventsLeaveTheEngineAlone : Prop :=
  ∀ (ev : HostEvent) (s : State), ev ≠ .tick → ev ≠ .reset →
    SameEngine s (afterEvent ev s) ∧ (afterEvent ev s).obs = s.obs ∧ (afterEvent ev s).params = s.params

/-- `start()` and `stop()` set and clear `clock_running` and change nothing else, each idempotent, and a
`start()` after a `stop()` resumes a running clock's state as it was (R36, R199). -/
def Obligations.StartAndStopOnlyMoveTheClock : Prop :=
  ∀ s : State,
    hostEvent .start s = .next { s with clockRunning := true } ∧
      hostEvent .stop s = .next { s with clockRunning := false } ∧
      s.stop.stop = s.stop ∧ s.start.start = s.start ∧ (s.clockRunning = true → s.stop.start = s)

/-- `poke` with the clock stopped and an address in memory completes: that byte is `value mod 256`, every
other byte and everything else is as it was (R52, R66). Memory in its canonical form is the model's
representation, kept by every event. -/
def Obligations.PokeWritesOneByte : Prop :=
  ∀ (s : State) (addr value : Nat), s.clockRunning = false → addr < s.params.memSize → s.mem.wf →
    ∃ t, hostEvent (.poke addr value) s = .next t ∧ t.memRead addr = .ok (BitVec.ofNat 8 (value % 256)) ∧
      (∀ a, a ≠ addr → t.memRead a = s.memRead a) ∧ SameEngine s t ∧ t.obs = s.obs ∧
      t.clockRunning = s.clockRunning ∧ t.params = s.params ∧ t.mem.wf

/-- A `poke` is refused to the host while the clock runs, and out of range, and the state is then as it
was (R66). -/
def Obligations.PokeRefusedChangesNothing : Prop :=
  ∀ (s : State) (addr value : Nat),
    (s.clockRunning = true →
      hostEvent (.poke addr value) s = .refused .pokeWhileRunning ∧ afterEvent (.poke addr value) s = s) ∧
      (s.clockRunning = false → s.params.memSize ≤ addr →
        hostEvent (.poke addr value) s = .refused (.pokeOutOfRange addr) ∧ afterEvent (.poke addr value) s = s)

/-- Every initial memory is a memory of the model: for every function from `0 .. MEM_SIZE-1` to bytes
there is a memory in canonical form that reads so (R67, `init_mem`). -/
def Obligations.EveryInitialMemoryIsRepresentable : Prop :=
  ∀ (n : Nat) (f : Nat → Byte), ∃ m : Memory, m.wf ∧ m.within n ∧ ∀ a < n, m.get a = f a

/-- Memories in canonical form that read the same are the same data (R50; the model's representation). -/
def Obligations.EqualMemoriesAreEqualData : Prop :=
  ∀ m₁ m₂ : Memory, m₁.wf → m₂.wf → (∀ a, m₁.get a = m₂.get a) → m₁ = m₂

/-- The state after creation, for every `MEM_SIZE`, `DEBUG_TRACE` and `init_mem` (R38): all registers 0,
`pc` 0, not halted, no error, RUNNING, nothing emitted, clock stopped; and the model's reset state is one
of these. -/
def Obligations.StateAfterReset : Prop :=
  (∀ (p : Params) (m : Memory),
    let s := State.create p m
    (∀ r : RegIndex, s.readReg r = 0) ∧ s.pc = 0 ∧ s.halt = false ∧ s.fault = none ∧ s.status = .running ∧
      s.obs = [] ∧ s.clockRunning = false ∧ s.mem = m ∧ s.params = p) ∧
    State.reset = State.create ⟨256, false⟩ []

/-- The reset event, from any state: every field to its reset value, memory and parameters untouched; and
execution begins at address 0 at the first tick after `start()` (R230, R68). -/
def Obligations.ResetEventKeepsMemory : Prop :=
  ∀ s : State,
    (∃ t, hostEvent .reset s = .next t ∧ (∀ r : RegIndex, t.readReg r = 0) ∧ t.pc = 0 ∧
      t.halt = false ∧ t.fault = none ∧ t.obs = [] ∧ t.clockRunning = false ∧ t.mem = s.mem ∧ t.params = s.params) ∧
      (∀ i : Instr, 2 < s.params.memSize → decode ⟨s.mem.get 0, s.mem.get 1, s.mem.get 2⟩ = .ok i →
        step (afterEvents [.reset, .start] s) = exec i (afterEvents [.reset, .start] s))

/-! ### The invariant -/

/-- Every created state meets the invariant, the model's reset state among them. -/
def Obligations.ReachableStateLawsHoldAtReset : Prop :=
  (∀ (p : Params) (m : Memory), m.wf → m.within p.memSize → Inv (State.create p m)) ∧ Inv State.reset

/-- Every step keeps the invariant: `pc` within `0 .. MEM_SIZE` (R27), never halted and faulted at once
(R30), the error record and the records as R191 to R193 and R174 allow, memory in canonical form. -/
def Obligations.EveryStepKeepsReachableStateLaws : Prop :=
  ∀ s t : State, Inv s → step s = .next t → Inv t

/-- So does every list of host events, from every state that meets it (R240). -/
def Obligations.HostEventsKeepReachableStateLaws : Prop :=
  ∀ (es : List HostEvent) (s : State), Inv s → Inv (afterEvents es s)

/-- The model's own convention for running one word (log entry 6): the step after placing a table word
runs the instruction that word decodes to. -/
def Obligations.PlacedWordIsRunNext : Prop :=
  ∀ (s : State) (nbits w : Nat) (i : Instr), s.mem.wf → decodeTableWord nbits w = some i →
    step (s.withFetchWord nbits w) = exec i (s.withFetchWord nbits w)
end

