-- ==== Sys2Proof/Laws/Encoding.lean ====
section
/-! SUPPORT. The opcode map and the decoder: the dispatch and the opcodes are inverse, and what a decoded descriptor
can be. -/

namespace Sys2Proof

/-- The dispatch of an opcode is its own row (R87). -/
@[simp] theorem dispatch_opcodeByte (m : Mnemonic) : dispatch (opcodeByte m) = some m := by
  cases m <;> decide

/-- A row is selected only by its own opcode, all eight bits (R86). -/
theorem opcodeByte_of_dispatch {o : Byte} {m : Mnemonic} (h : dispatch o = some m) : opcodeByte m = o := by
  have := List.find?_some h
  simpa using this

/-- The dispatch fails for every byte that is no row's opcode (R89). -/
theorem dispatch_eq_none_iff (o : Byte) : dispatch o = none ↔ ∀ m, o ≠ opcodeByte m := by
  constructor
  · rintro h m rfl
    simp at h
  · intro h
    cases hd : dispatch o with
    | none => rfl
    | some m => exact absurd (opcodeByte_of_dispatch hd).symm (h m)

/-- The encoded lengths of the six instructions (R87): the formula, not the number of operands consumed. -/
theorem decodeLength_opcodeByte (m : Mnemonic) :
    decodeLength (opcodeByte m) =
      match m with
      | .hlt => 1 | .add => 1 | .prn => 2 | .call => 2 | .ldi => 3 | .mul => 3 := by
  cases m <;> decide

/-- Everything a decoded descriptor can be: its opcode byte is the instruction's and its operand bytes
are the instruction's operands. -/
theorem decode_ok_cases {d : Descriptor} {i : Instr} (h : decode d = .ok i) :
    d.ir = opcodeByte i.mnemonic ∧
      (i = .hlt ∨ i = .add d.a ∨ i = .prn d.a ∨ i = .call d.a ∨ i = .ldi d.a d.b ∨ i = .mul d.a d.b) := by
  unfold decode at h
  cases hd : dispatch d.ir with
  | none => simp [hd] at h
  | some m =>
    have hm := opcodeByte_of_dispatch hd
    cases m <;> simp only [hd, Except.ok.injEq] at h <;> subst h <;> simp [Instr.mnemonic, hm]

/-- A rejected descriptor is one whose opcode is no row's, and it is rejected by that name (R89). -/
theorem decode_error_cases {d : Descriptor} {e : DecodeError} (h : decode d = .error e) :
    dispatch d.ir = none ∧ e = .unknownOpcode d.ir := by
  unfold decode at h
  cases hd : dispatch d.ir with
  | none => simpa [hd, eq_comm] using h
  | some m => cases m <;> simp [hd] at h

end Sys2Proof
end

