-- ==== Sys2Proof/Laws/State.lean ====
section
/-! SUPPORT. One lemma per field per named update of the state, so that no proof unfolds a record update. -/

namespace Sys2Proof.Machine

/-! ### writeReg -/
@[simp] theorem writeReg_x (i : RegIndex) (v : Nat) (s : State) :
    (s.writeReg i v).x = s.x.set i (BitVec.ofNat 8 v) := rfl
@[simp] theorem writeReg_pc (i : RegIndex) (v : Nat) (s : State) : (s.writeReg i v).pc = s.pc := rfl
@[simp] theorem writeReg_halt (i : RegIndex) (v : Nat) (s : State) : (s.writeReg i v).halt = s.halt := rfl
@[simp] theorem writeReg_fault (i : RegIndex) (v : Nat) (s : State) : (s.writeReg i v).fault = s.fault := rfl
@[simp] theorem writeReg_mem (i : RegIndex) (v : Nat) (s : State) : (s.writeReg i v).mem = s.mem := rfl
@[simp] theorem writeReg_obs (i : RegIndex) (v : Nat) (s : State) : (s.writeReg i v).obs = s.obs := rfl
@[simp] theorem writeReg_clockRunning (i : RegIndex) (v : Nat) (s : State) :
    (s.writeReg i v).clockRunning = s.clockRunning := rfl
@[simp] theorem writeReg_params (i : RegIndex) (v : Nat) (s : State) : (s.writeReg i v).params = s.params := rfl

/-! ### advance -/
@[simp] theorem advance_x (ir : Byte) (s : State) : (s.advance ir).x = s.x := rfl
@[simp] theorem advance_pc (ir : Byte) (s : State) : (s.advance ir).pc = s.pc + decodeLength ir := rfl
@[simp] theorem advance_halt (ir : Byte) (s : State) : (s.advance ir).halt = s.halt := rfl
@[simp] theorem advance_fault (ir : Byte) (s : State) : (s.advance ir).fault = s.fault := rfl
@[simp] theorem advance_mem (ir : Byte) (s : State) : (s.advance ir).mem = s.mem := rfl
@[simp] theorem advance_obs (ir : Byte) (s : State) : (s.advance ir).obs = s.obs := rfl
@[simp] theorem advance_clockRunning (ir : Byte) (s : State) :
    (s.advance ir).clockRunning = s.clockRunning := rfl
@[simp] theorem advance_params (ir : Byte) (s : State) : (s.advance ir).params = s.params := rfl

/-! ### emit -/
@[simp] theorem emit_x (m : Mnemonic) (i : RegIndex) (v : Byte) (s : State) : (s.emit m i v).x = s.x := rfl
@[simp] theorem emit_pc (m : Mnemonic) (i : RegIndex) (v : Byte) (s : State) : (s.emit m i v).pc = s.pc := rfl
@[simp] theorem emit_halt (m : Mnemonic) (i : RegIndex) (v : Byte) (s : State) : (s.emit m i v).halt = s.halt := rfl
@[simp] theorem emit_fault (m : Mnemonic) (i : RegIndex) (v : Byte) (s : State) :
    (s.emit m i v).fault = s.fault := rfl
@[simp] theorem emit_mem (m : Mnemonic) (i : RegIndex) (v : Byte) (s : State) : (s.emit m i v).mem = s.mem := rfl
@[simp] theorem emit_obs (m : Mnemonic) (i : RegIndex) (v : Byte) (s : State) :
    (s.emit m i v).obs = s.obs ++ [⟨m, i, v⟩] := rfl
@[simp] theorem emit_clockRunning (m : Mnemonic) (i : RegIndex) (v : Byte) (s : State) :
    (s.emit m i v).clockRunning = s.clockRunning := rfl
@[simp] theorem emit_params (m : Mnemonic) (i : RegIndex) (v : Byte) (s : State) :
    (s.emit m i v).params = s.params := rfl

/-! ### debugEmit: only `obs` can differ -/

/-- The one thing a debug record does: it appends one record when `DEBUG_TRACE` is true (R173). -/
theorem debugEmit_eq (m : Mnemonic) (i : RegIndex) (s : State) :
    s.debugEmit m i = { s with obs := s.obs ++ debugRecords s.params m i (s.readReg i) } := by
  unfold State.debugEmit debugRecords
  split <;> simp [State.emit]

@[simp] theorem debugEmit_x (m : Mnemonic) (i : RegIndex) (s : State) : (s.debugEmit m i).x = s.x := by
  rw [debugEmit_eq]
@[simp] theorem debugEmit_pc (m : Mnemonic) (i : RegIndex) (s : State) : (s.debugEmit m i).pc = s.pc := by
  rw [debugEmit_eq]
@[simp] theorem debugEmit_halt (m : Mnemonic) (i : RegIndex) (s : State) :
    (s.debugEmit m i).halt = s.halt := by rw [debugEmit_eq]
@[simp] theorem debugEmit_fault (m : Mnemonic) (i : RegIndex) (s : State) :
    (s.debugEmit m i).fault = s.fault := by rw [debugEmit_eq]
@[simp] theorem debugEmit_mem (m : Mnemonic) (i : RegIndex) (s : State) : (s.debugEmit m i).mem = s.mem := by
  rw [debugEmit_eq]
@[simp] theorem debugEmit_obs (m : Mnemonic) (i : RegIndex) (s : State) :
    (s.debugEmit m i).obs = s.obs ++ debugRecords s.params m i (s.readReg i) := by rw [debugEmit_eq]
@[simp] theorem debugEmit_clockRunning (m : Mnemonic) (i : RegIndex) (s : State) :
    (s.debugEmit m i).clockRunning = s.clockRunning := by rw [debugEmit_eq]
@[simp] theorem debugEmit_params (m : Mnemonic) (i : RegIndex) (s : State) :
    (s.debugEmit m i).params = s.params := by rw [debugEmit_eq]

/-! ### raise -/
@[simp] theorem raise_x (e : Fault) (s : State) : (s.raise e).x = s.x := rfl
@[simp] theorem raise_pc (e : Fault) (s : State) : (s.raise e).pc = s.pc := rfl
@[simp] theorem raise_halt (e : Fault) (s : State) : (s.raise e).halt = s.halt := rfl
@[simp] theorem raise_fault (e : Fault) (s : State) : (s.raise e).fault = some e := rfl
@[simp] theorem raise_mem (e : Fault) (s : State) : (s.raise e).mem = s.mem := rfl
@[simp] theorem raise_obs (e : Fault) (s : State) : (s.raise e).obs = s.obs := rfl
@[simp] theorem raise_clockRunning (e : Fault) (s : State) : (s.raise e).clockRunning = false := rfl
@[simp] theorem raise_params (e : Fault) (s : State) : (s.raise e).params = s.params := rfl

/-! ### raiseHalt -/
@[simp] theorem raiseHalt_x (s : State) : s.raiseHalt.x = s.x := rfl
@[simp] theorem raiseHalt_pc (s : State) : s.raiseHalt.pc = s.pc := rfl
@[simp] theorem raiseHalt_halt (s : State) : s.raiseHalt.halt = true := rfl
@[simp] theorem raiseHalt_fault (s : State) : s.raiseHalt.fault = s.fault := rfl
@[simp] theorem raiseHalt_mem (s : State) : s.raiseHalt.mem = s.mem := rfl
@[simp] theorem raiseHalt_obs (s : State) : s.raiseHalt.obs = s.obs := rfl
@[simp] theorem raiseHalt_clockRunning (s : State) : s.raiseHalt.clockRunning = false := rfl
@[simp] theorem raiseHalt_params (s : State) : s.raiseHalt.params = s.params := rfl

/-! ### start, stop, resetEvent -/
@[simp] theorem start_x (s : State) : s.start.x = s.x := rfl
@[simp] theorem start_pc (s : State) : s.start.pc = s.pc := rfl
@[simp] theorem start_halt (s : State) : s.start.halt = s.halt := rfl
@[simp] theorem start_fault (s : State) : s.start.fault = s.fault := rfl
@[simp] theorem start_mem (s : State) : s.start.mem = s.mem := rfl
@[simp] theorem start_obs (s : State) : s.start.obs = s.obs := rfl
@[simp] theorem start_clockRunning (s : State) : s.start.clockRunning = true := rfl
@[simp] theorem start_params (s : State) : s.start.params = s.params := rfl
@[simp] theorem stop_x (s : State) : s.stop.x = s.x := rfl
@[simp] theorem stop_pc (s : State) : s.stop.pc = s.pc := rfl
@[simp] theorem stop_halt (s : State) : s.stop.halt = s.halt := rfl
@[simp] theorem stop_fault (s : State) : s.stop.fault = s.fault := rfl
@[simp] theorem stop_mem (s : State) : s.stop.mem = s.mem := rfl
@[simp] theorem stop_obs (s : State) : s.stop.obs = s.obs := rfl
@[simp] theorem stop_clockRunning (s : State) : s.stop.clockRunning = false := rfl
@[simp] theorem stop_params (s : State) : s.stop.params = s.params := rfl
@[simp] theorem resetEvent_x (s : State) : s.resetEvent.x = Vector.replicate 8 0 := rfl
@[simp] theorem resetEvent_pc (s : State) : s.resetEvent.pc = 0 := rfl
@[simp] theorem resetEvent_halt (s : State) : s.resetEvent.halt = false := rfl
@[simp] theorem resetEvent_fault (s : State) : s.resetEvent.fault = none := rfl
@[simp] theorem resetEvent_mem (s : State) : s.resetEvent.mem = s.mem := rfl
@[simp] theorem resetEvent_obs (s : State) : s.resetEvent.obs = [] := rfl
@[simp] theorem resetEvent_clockRunning (s : State) : s.resetEvent.clockRunning = false := rfl
@[simp] theorem resetEvent_params (s : State) : s.resetEvent.params = s.params := rfl

/-! ### Register reads after a write (R21) -/

theorem readReg_writeReg_same (i : RegIndex) (v : Nat) (s : State) :
    (s.writeReg i v).readReg i = BitVec.ofNat 8 v := by
  simp [State.readReg]

theorem readReg_writeReg_other (i j : RegIndex) (v : Nat) (s : State) (h : j ≠ i) :
    (s.writeReg i v).readReg j = s.readReg j := by
  simp only [State.readReg, writeReg_x, Fin.getElem_fin]
  exact Vector.getElem_set_ne _ _ (fun hij => h (Fin.ext hij.symm))

/-! ### The status and the gate (R30, R110) -/

/-- RUNNING is: no error recorded and not halted (R30). -/
theorem status_running_iff (s : State) : s.status = .running ↔ s.fault = none ∧ s.halt = false := by
  unfold State.status
  cases s.fault <;> cases s.halt <;> simp

/-- The gate is open when the clock runs, no error is recorded and the engine is not halted (R110). -/
theorem gateOpen_iff (s : State) :
    s.gateOpen = true ↔ s.clockRunning = true ∧ s.fault = none ∧ s.halt = false := by
  simp [State.gateOpen, status_running_iff]

end Sys2Proof.Machine
end

