-- ==== Sys2Proof/Laws/Exec.lean ====
section
/-! SUPPORT. What each operand form, each handler and each meaning can do, said once. -/

namespace Sys2Proof.Machine

/-- A register operand in `0..7` is its register (R22). -/
theorem registerOperand_ok {a : Byte} (h : a.toNat < 8) : registerOperand a = .ok ⟨a.toNat, h⟩ := dif_pos h

/-- A register operand above 7 is the error that names it (R193). -/
theorem registerOperand_error {a : Byte} (h : 7 < a.toNat) :
    registerOperand a = .error (.registerIndexOutOfRange a) := dif_neg (by omega)

theorem withRegister_ok {a : Byte} (h : a.toNat < 8) (k : RegIndex → State) :
    withRegister a k = .ok (k ⟨a.toNat, h⟩) := by
  simp [withRegister, registerOperand_ok h]

theorem withRegister_error {a : Byte} (h : 7 < a.toNat) (k : RegIndex → State) :
    withRegister a k = .error (.registerIndexOutOfRange a) := by
  simp [withRegister, registerOperand_error h]

theorem withRegisters_ok {a b : Byte} (ha : a.toNat < 8) (hb : b.toNat < 8) (k : RegIndex → RegIndex → State) :
    withRegisters a b k = .ok (k ⟨a.toNat, ha⟩ ⟨b.toNat, hb⟩) := by
  simp [withRegisters, registerOperand_ok ha, withRegister_ok hb]

theorem withRegisters_error_first {a : Byte} (ha : 7 < a.toNat) (b : Byte) (k : RegIndex → RegIndex → State) :
    withRegisters a b k = .error (.registerIndexOutOfRange a) := by
  simp [withRegisters, registerOperand_error ha]

theorem withRegisters_error_second {a b : Byte} (ha : a.toNat < 8) (hb : 7 < b.toNat)
    (k : RegIndex → RegIndex → State) :
    withRegisters a b k = .error (.registerIndexOutOfRange b) := by
  simp [withRegisters, registerOperand_ok ha, withRegister_error hb]

/-- Everything a handler with one register operand can answer. -/
theorem withRegister_cases (a : Byte) (k : RegIndex → State) :
    (∃ i : RegIndex, a.toNat = i.val ∧ withRegister a k = .ok (k i)) ∨
      (7 < a.toNat ∧ withRegister a k = .error (.registerIndexOutOfRange a)) := by
  rcases Nat.lt_or_ge a.toNat 8 with h | h
  · exact .inl ⟨⟨a.toNat, h⟩, rfl, withRegister_ok h k⟩
  · exact .inr ⟨by omega, withRegister_error (by omega) k⟩

/-- Everything a handler with two register operands can answer (R144, R194). -/
theorem withRegisters_cases (a b : Byte) (k : RegIndex → RegIndex → State) :
    (∃ i j : RegIndex, a.toNat = i.val ∧ b.toNat = j.val ∧ withRegisters a b k = .ok (k i j)) ∨
      (7 < a.toNat ∧ withRegisters a b k = .error (.registerIndexOutOfRange a)) ∨
      (a.toNat < 8 ∧ 7 < b.toNat ∧ withRegisters a b k = .error (.registerIndexOutOfRange b)) := by
  rcases Nat.lt_or_ge a.toNat 8 with ha | ha
  · rcases Nat.lt_or_ge b.toNat 8 with hb | hb
    · exact .inl ⟨⟨a.toNat, ha⟩, ⟨b.toNat, hb⟩, rfl, rfl, withRegisters_ok ha hb k⟩
    · exact .inr (.inr ⟨ha, by omega, withRegisters_error_second ha (by omega) k⟩)
  · exact .inr (.inl ⟨by omega, withRegisters_error_first (by omega) b k⟩)

/-- What a handler that runs to its end does to the state (R114): HLT raises the halt flag, PRN and CALL
append one record, and ADD, LDI and MUL write one register and may append a debug record. -/
inductive Handled (s : State) : Instr → State → Prop where
  | hlt : Handled s .hlt s.raiseHalt
  | add (a : Byte) (i : RegIndex) (ha : a.toNat = i.val) :
      Handled s (.add a) ((s.writeReg i (dbl8 (s.readReg i)).toNat).debugEmit .add i)
  | prn (a : Byte) (i : RegIndex) (ha : a.toNat = i.val) : Handled s (.prn a) (s.emit .prn i (s.readReg i))
  | call (a : Byte) (i : RegIndex) (ha : a.toNat = i.val) : Handled s (.call a) (s.emit .call i (s.readReg i))
  | ldi (a b : Byte) (i : RegIndex) (ha : a.toNat = i.val) :
      Handled s (.ldi a b) ((s.writeReg i (immediateOperand b)).debugEmit .ldi i)
  | mul (a b : Byte) (i j : RegIndex) (ha : a.toNat = i.val) (hb : b.toNat = j.val) :
      Handled s (.mul a b) ((s.writeReg i (alu .mul (s.readReg i) (s.readReg j)).toNat).debugEmit .mul i)

/-- Everything a meaning can do: it completes with its handler's effect and the PC advance, or it raises
the error of one of its register operands above 7 and does nothing else. -/
theorem exec_cases (i : Instr) (s : State) :
    (∃ u, Handled s i u ∧ exec i s = .next (u.advance (opcodeByte i.mnemonic))) ∨
      (∃ a ∈ i.registerOperands, 7 < a.toNat ∧ exec i s = .next (s.raise (.registerIndexOutOfRange a))) := by
  cases i with
  | hlt => exact .inl ⟨_, .hlt, rfl⟩
  | add a =>
    rcases withRegister_cases a
        (fun i => (s.writeReg i (dbl8 (s.readReg i)).toNat).debugEmit .add i) with ⟨i, hi, h⟩ | ⟨ha, h⟩
    · exact .inl ⟨_, .add a i hi, by simp [exec, execAdd, handleAdd, h, State.finish, Instr.mnemonic]⟩
    · exact .inr ⟨a, by simp [Instr.registerOperands], ha, by simp [exec, execAdd, handleAdd, h, State.finish]⟩
  | prn a =>
    rcases withRegister_cases a (fun i => s.emit .prn i (s.readReg i)) with ⟨i, hi, h⟩ | ⟨ha, h⟩
    · exact .inl ⟨_, .prn a i hi, by simp [exec, execPrn, reportRegister, h, State.finish, Instr.mnemonic]⟩
    · exact .inr ⟨a, by simp [Instr.registerOperands], ha, by simp [exec, execPrn, reportRegister, h, State.finish]⟩
  | call a =>
    rcases withRegister_cases a (fun i => s.emit .call i (s.readReg i)) with ⟨i, hi, h⟩ | ⟨ha, h⟩
    · exact .inl ⟨_, .call a i hi, by simp [exec, execCall, reportRegister, h, State.finish, Instr.mnemonic]⟩
    · exact .inr ⟨a, by simp [Instr.registerOperands], ha, by simp [exec, execCall, reportRegister, h, State.finish]⟩
  | ldi a b =>
    rcases withRegister_cases a (fun i => (s.writeReg i (immediateOperand b)).debugEmit .ldi i) with
      ⟨i, hi, h⟩ | ⟨ha, h⟩
    · exact .inl ⟨_, .ldi a b i hi,
        by simp [exec, execLdi, handleLdi, h, State.finish, Instr.mnemonic]⟩
    · exact .inr ⟨a, by simp [Instr.registerOperands], ha, by simp [exec, execLdi, handleLdi, h, State.finish]⟩
  | mul a b =>
    rcases withRegisters_cases a b (fun i j =>
        (s.writeReg i (alu .mul (s.readReg i) (s.readReg j)).toNat).debugEmit .mul i) with
      ⟨i, j, hi, hj, h⟩ | ⟨ha, h⟩ | ⟨-, hb, h⟩
    · exact .inl ⟨_, .mul a b i j hi hj, by simp [exec, execMul, handleMul, h, State.finish, Instr.mnemonic]⟩
    · exact .inr ⟨a, by simp [Instr.registerOperands], ha, by simp [exec, execMul, handleMul, h, State.finish]⟩
    · exact .inr ⟨b, by simp [Instr.registerOperands], hb, by simp [exec, execMul, handleMul, h, State.finish]⟩

/-- No handler touches memory, `pc`, the error record or the parameters (R114). -/
theorem Handled.mem_eq {s u : State} {i : Instr} (h : Handled s i u) : u.mem = s.mem := by cases h <;> simp
theorem Handled.pc_eq {s u : State} {i : Instr} (h : Handled s i u) : u.pc = s.pc := by cases h <;> simp
theorem Handled.fault_eq {s u : State} {i : Instr} (h : Handled s i u) : u.fault = s.fault := by cases h <;> simp
theorem Handled.params_eq {s u : State} {i : Instr} (h : Handled s i u) : u.params = s.params := by
  cases h <;> simp

/-- A handler only appends to the observation channel (R35). -/
theorem Handled.obs_prefix {s u : State} {i : Instr} (h : Handled s i u) : s.obs <+: u.obs := by
  cases h <;> simp

end Sys2Proof.Machine
end

