-- ==== Sys2Proof/Laws/Memory.lean ====
section
/-! SUPPORT. Memory contents: a read after a write, and that every operation keeps the canonical form. -/

namespace Sys2Proof.Machine

/-- An address below every listed one is not listed. -/
theorem Memory.get_of_forall_lt {m : Memory} {k : Nat} (h : ∀ c ∈ m, k < c.1) :
    Memory.get m k = Memory.unlisted := by
  induction m with
  | nil => rfl
  | cons c m ih =>
    have h1 := h c (by simp)
    simp only [Memory.get]
    rw [if_neg (by omega)]
    exact ih fun d hd => h d (by simp [hd])

/-- Reading through a cell put in front, when no later cell has its address. -/
theorem Memory.get_consCell {m : Memory} {k : Nat} (v : Byte) (j : Nat) (h : ∀ c ∈ m, k < c.1) :
    Memory.get (Memory.consCell k v m) j = if k = j then v else Memory.get m j := by
  unfold Memory.consCell
  split
  · next hv =>
    split
    · next hkj => subst hkj; rw [Memory.get_of_forall_lt h, hv]
    · rfl
  · rfl

theorem Memory.wf_tail {c : Host.Cell} {m : Memory} (h : Memory.wf (c :: m)) : Memory.wf m :=
  ⟨(List.pairwise_cons.mp h.1).2, fun d hd => h.2 d (by simp [hd])⟩

theorem Memory.head_lt {c : Host.Cell} {m : Memory} (h : Memory.wf (c :: m)) : ∀ d ∈ m, c.1 < d.1 :=
  (List.pairwise_cons.mp h.1).1

/-- Reading after a write: the written address gives the byte written, every other address what it gave
before (R52). -/
theorem Memory.get_set {m : Memory} (h : m.wf) (k : Nat) (v : Byte) (j : Nat) :
    Memory.get (Memory.set m k v) j = if k = j then v else Memory.get m j := by
  induction m with
  | nil => exact Memory.get_consCell v j (by simp)
  | cons c m ih =>
    obtain ⟨a, w⟩ := c
    have hlt : ∀ d ∈ m, a < d.1 := Memory.head_lt h
    simp only [Memory.set]
    split
    · next hka =>
      refine Memory.get_consCell v j fun d hd => ?_
      rcases List.mem_cons.mp hd with rfl | hd
      · exact hka
      · exact hka.trans (hlt d hd)
    · split
      · next hka =>
        subst hka
        rw [Memory.get_consCell v j hlt]
        by_cases hkj : k = j <;> simp [Memory.get, hkj]
      · next hka =>
        simp only [Memory.get, ih (Memory.wf_tail h)]
        by_cases haj : a = j
        · subst haj; simp [hka]
        · simp [haj]

theorem Memory.mem_consCell {k : Nat} {v : Byte} {m : Memory} {c : Host.Cell}
    (h : c ∈ Memory.consCell k v m) : c = (k, v) ∨ c ∈ m := by
  unfold Memory.consCell at h
  split at h
  · exact .inr h
  · exact List.mem_cons.mp h

/-- A cell of the memory after a write is the written cell or was there before. -/
theorem Memory.mem_set {m : Memory} {k : Nat} {v : Byte} {c : Host.Cell}
    (h : c ∈ Memory.set m k v) : c = (k, v) ∨ c ∈ m := by
  induction m with
  | nil => exact Memory.mem_consCell h
  | cons d m ih =>
    simp only [Memory.set] at h
    split at h
    · exact Memory.mem_consCell h
    · split at h
      · exact (Memory.mem_consCell h).imp_right (List.mem_cons_of_mem _)
      · rcases List.mem_cons.mp h with rfl | h
        · exact .inr (by simp)
        · exact (ih h).imp_right (List.mem_cons_of_mem _)

theorem Memory.wf_consCell {m : Memory} {k : Nat} (v : Byte) (h : m.wf) (hk : ∀ c ∈ m, k < c.1) :
    (Memory.consCell k v m).wf := by
  unfold Memory.consCell
  split
  · exact h
  · next hv =>
    refine ⟨List.pairwise_cons.mpr ⟨hk, h.1⟩, fun c hc => ?_⟩
    rcases List.mem_cons.mp hc with rfl | hc
    · exact hv
    · exact h.2 c hc

/-- A write keeps the canonical form. -/
theorem Memory.wf_set {m : Memory} (h : m.wf) (k : Nat) (v : Byte) : (Memory.set m k v).wf := by
  induction m with
  | nil => exact Memory.wf_consCell v h (by simp)
  | cons c m ih =>
    obtain ⟨a, w⟩ := c
    have hlt : ∀ d ∈ m, a < d.1 := Memory.head_lt h
    simp only [Memory.set]
    split
    · next hka =>
      refine Memory.wf_consCell v h fun d hd => ?_
      rcases List.mem_cons.mp hd with rfl | hd
      · exact hka
      · exact hka.trans (hlt d hd)
    · split
      · next hka => subst hka; exact Memory.wf_consCell v (Memory.wf_tail h) hlt
      · next hnlt hne =>
        refine ⟨List.pairwise_cons.mpr ⟨fun d hd => ?_, (ih (Memory.wf_tail h)).1⟩, fun d hd => ?_⟩
        · rcases Memory.mem_set hd with rfl | hd
          · show a < k; omega
          · exact hlt d hd
        · rcases List.mem_cons.mp hd with rfl | hd
          · exact h.2 _ (by simp)
          · exact (ih (Memory.wf_tail h)).2 d hd

/-- A write within `0 .. n-1` lists no cell outside it. -/
theorem Memory.within_set {m : Memory} {n k : Nat} (h : m.within n) (hk : k < n) (v : Byte) :
    (Memory.set m k v).within n := by
  intro c hc
  rcases Memory.mem_set hc with rfl | hc
  · exact hk
  · exact h c hc

/-- Memory with nothing listed has the canonical form. -/
theorem Memory.wf_nil : Memory.wf [] := ⟨List.Pairwise.nil, by simp⟩

/-- The memory of the reset state has the canonical form. -/
theorem reset_mem_wf : State.reset.mem.wf := Memory.wf_nil

/-- `MemWrite` keeps the canonical form (R52). -/
theorem memWrite_keeps_wf {s t : State} {addr v : Nat} (h : s.memWrite addr v = .ok t) (hw : s.mem.wf) :
    t.mem.wf := by
  unfold State.memWrite at h
  split at h
  · cases h; exact Memory.wf_set hw _ _
  · cases h

/-- `MemRead` inside memory (R51). -/
theorem memRead_ok {s : State} {addr : Nat} (h : addr < s.params.memSize) :
    s.memRead addr = .ok (s.mem.get addr) := if_pos h

/-- `MemRead` outside memory (R53). -/
theorem memRead_error {s : State} {addr : Nat} (h : s.params.memSize ≤ addr) :
    s.memRead addr = .error (.outOfBoundsAccess addr) := if_neg (by omega)

end Sys2Proof.Machine
end

