-- ==== Sys2Proof/Laws/Step.lean ====
section
/-! SUPPORT. What the fetch and a step can do, said once. -/

namespace Sys2Proof.Machine

/-- The fetch when all three addresses are valid (R57, R112). -/
theorem fetch_ok {s : State} (h : s.pc + 2 < s.params.memSize) :
    s.fetch = .ok ⟨s.mem.get s.pc, s.mem.get (s.pc + 1), s.mem.get (s.pc + 2)⟩ := by
  simp [State.fetch, memRead_ok (show s.pc < s.params.memSize by omega),
    memRead_ok (show s.pc + 1 < s.params.memSize by omega), memRead_ok h]

/-- Everything the fetch can answer: the three bytes, or the error of the first bad address (R57). -/
theorem fetch_cases (s : State) :
    (s.pc + 2 < s.params.memSize ∧
        s.fetch = .ok ⟨s.mem.get s.pc, s.mem.get (s.pc + 1), s.mem.get (s.pc + 2)⟩) ∨
      (s.params.memSize ≤ s.pc ∧ s.fetch = .error (.outOfBoundsAccess s.pc)) ∨
      (s.params.memSize = s.pc + 1 ∧ s.fetch = .error (.outOfBoundsAccess (s.pc + 1))) ∨
      (s.params.memSize = s.pc + 2 ∧ s.fetch = .error (.outOfBoundsAccess (s.pc + 2))) := by
  by_cases h2 : s.pc + 2 < s.params.memSize
  · exact .inl ⟨h2, fetch_ok h2⟩
  right
  by_cases h0 : s.pc < s.params.memSize
  · right
    by_cases h1 : s.pc + 1 < s.params.memSize
    · exact .inr ⟨by omega, by simp [State.fetch, memRead_ok h0, memRead_ok h1,
        memRead_error (show s.params.memSize ≤ s.pc + 2 by omega)]⟩
    · exact .inl ⟨by omega, by simp [State.fetch, memRead_ok h0,
        memRead_error (show s.params.memSize ≤ s.pc + 1 by omega)]⟩
  · exact .inl ⟨by omega, by simp [State.fetch, memRead_error (show s.params.memSize ≤ s.pc by omega)]⟩

/-- A step with the gate closed changes nothing (R110). -/
theorem step_of_gate_closed {s : State} (h : s.gateOpen = false) : step s = .next s := by
  simp [step, State.tick, h]

/-- A step with the gate open whose fetch fails raises that error. -/
theorem step_of_fetch_error {s : State} {e : Fault} (hg : s.gateOpen = true) (h : s.fetch = .error e) :
    step s = .next (s.raise e) := by
  simp [step, State.tick, hg, State.cycle, h]

/-- A step with the gate open whose opcode is none of the six raises `UnknownOpcode` (R191). -/
theorem step_of_unknown {s : State} {d : Descriptor} (hg : s.gateOpen = true) (h : s.fetch = .ok d)
    (hd : Sys2Proof.dispatch d.ir = none) : step s = .next (s.raise (.unknownOpcode d.ir)) := by
  simp [step, State.tick, hg, State.cycle, h, decode, hd, unknownOpcodeOf]

/-- A step with the gate open whose descriptor decodes runs that instruction's meaning. -/
theorem step_of_decoded {s : State} {d : Descriptor} {i : Instr} (hg : s.gateOpen = true) (h : s.fetch = .ok d)
    (hd : decode d = .ok i) : step s = exec i s := by
  simp [step, State.tick, hg, State.cycle, h, hd]

/-- Everything a step can do: nothing (the gate is closed), raise the fetch's error, raise
`UnknownOpcode`, complete the fetched instruction, or raise the error of one of its register
operands. -/
theorem step_cases (s : State) :
    (s.gateOpen = false ∧ step s = .next s) ∨
      (s.gateOpen = true ∧ s.params.memSize ≤ s.pc + 2 ∧
        ∃ addr, s.fetch = .error (.outOfBoundsAccess addr) ∧ step s = .next (s.raise (.outOfBoundsAccess addr))) ∨
      (s.gateOpen = true ∧ s.pc + 2 < s.params.memSize ∧ Sys2Proof.dispatch (s.mem.get s.pc) = none ∧
        step s = .next (s.raise (.unknownOpcode (s.mem.get s.pc)))) ∨
      (s.gateOpen = true ∧ s.pc + 2 < s.params.memSize ∧
        ∃ i, decode ⟨s.mem.get s.pc, s.mem.get (s.pc + 1), s.mem.get (s.pc + 2)⟩ = .ok i ∧ step s = exec i s ∧
          ((∃ u, Handled s i u ∧ step s = .next (u.advance (opcodeByte i.mnemonic))) ∨
            (∃ a ∈ i.registerOperands, 7 < a.toNat ∧
              step s = .next (s.raise (.registerIndexOutOfRange a))))) := by
  cases hg : s.gateOpen with
  | false => exact .inl ⟨rfl, step_of_gate_closed hg⟩
  | true =>
    right
    rcases fetch_cases s with ⟨hb, hf⟩ | ⟨hb, hf⟩ | ⟨hb, hf⟩ | ⟨hb, hf⟩
    · right
      cases hd : decode ⟨s.mem.get s.pc, s.mem.get (s.pc + 1), s.mem.get (s.pc + 2)⟩ with
      | error e => exact .inl ⟨rfl, hb, (decode_error_cases hd).1, step_of_unknown hg hf (decode_error_cases hd).1⟩
      | ok i =>
        refine .inr ⟨rfl, hb, i, rfl, step_of_decoded hg hf hd, ?_⟩
        rw [step_of_decoded hg hf hd]
        exact exec_cases i s
    · exact .inl ⟨rfl, by omega, _, hf, step_of_fetch_error hg hf⟩
    · exact .inl ⟨rfl, by omega, _, hf, step_of_fetch_error hg hf⟩
    · exact .inl ⟨rfl, by omega, _, hf, step_of_fetch_error hg hf⟩

end Sys2Proof.Machine
end

