-- ==== Sys2Proof/Laws/Events.lean ====
section
/-! SUPPORT. What each host event does, said once, and how a run unfolds. -/

namespace Sys2Proof.Machine

/-- A `poke` with the clock stopped and an address in memory (R66). -/
theorem poke_ok {s : State} {addr : Nat} (hc : s.clockRunning = false) (h : addr < s.params.memSize) (v : Nat) :
    s.poke addr v = .next { s with mem := s.mem.set addr (BitVec.ofNat 8 v) } := by
  simp [State.poke, hc, State.memWrite, h]

theorem poke_running {s : State} (hc : s.clockRunning = true) (addr v : Nat) :
    s.poke addr v = .refused .pokeWhileRunning := by
  simp [State.poke, hc]

theorem poke_outOfRange {s : State} {addr : Nat} (hc : s.clockRunning = false) (h : s.params.memSize ≤ addr)
    (v : Nat) : s.poke addr v = .refused (.pokeOutOfRange addr) := by
  simp [State.poke, hc, State.memWrite, Nat.not_lt.mpr h]

@[simp] theorem afterEvent_start (s : State) : afterEvent .start s = s.start := rfl
@[simp] theorem afterEvent_stop (s : State) : afterEvent .stop s = s.stop := rfl
@[simp] theorem afterEvent_reset (s : State) : afterEvent .reset s = s.resetEvent := rfl

/-- The state after a tick is the step's. -/
theorem afterEvent_tick {s t : State} (h : step s = .next t) : afterEvent .tick s = t := by
  simp [afterEvent, hostEvent, h]

/-- Everything a `poke` can leave: one byte of memory written, or the state as it was (R66). -/
theorem afterEvent_poke_cases (s : State) (addr v : Nat) :
    (s.clockRunning = false ∧ addr < s.params.memSize ∧
        afterEvent (.poke addr v) s = { s with mem := s.mem.set addr (BitVec.ofNat 8 v) }) ∨
      afterEvent (.poke addr v) s = s := by
  cases hc : s.clockRunning with
  | true => exact .inr (by simp [afterEvent, hostEvent, poke_running hc])
  | false =>
    rcases Nat.lt_or_ge addr s.params.memSize with h | h
    · exact .inl ⟨rfl, h, by simp [afterEvent, hostEvent, poke_ok hc h, hc]⟩
    · exact .inr (by simp [afterEvent, hostEvent, poke_outOfRange hc h])

/-- A run of no steps. -/
theorem run_zero (s : State) : Sys2Proof.core.run 0 s = Host.Outcome.next s := rfl

/-- A run whose first step answers a next state goes on from it. -/
theorem run_succ {s t : State} (n : Nat) (h : step s = .next t) :
    Sys2Proof.core.run (n + 1) s = Sys2Proof.core.run n t := by
  simp only [Host.Core.run]
  have h' : Sys2Proof.core.step s = Host.Outcome.next t := h
  rw [h']

end Sys2Proof.Machine
end

