-- ==== Sys2Proof/Laws/PerInstr.lean ====
section
/-! SUPPORT. Statements about every instruction as syntax, one lemma per constructor. -/

namespace Sys2Proof.Laws.EncodingShape

/-- The shape of an instruction's bytes (R80, R87, R92): the opcode byte first, then the operand bytes
the instruction consumes, at most three bytes; and the encoded length is the number of those bytes, but
for ADD, whose encoded length is one less (R88). -/
def Statement (i : Instr) : Prop :=
  (encode i).head? = some (opcodeByte i.mnemonic) ∧
    (encode i).length ≤ 3 ∧
    (encode i).length = decodeLength (opcodeByte i.mnemonic) + (if i.mnemonic = .add then 1 else 0) ∧
    i.registerOperands ⊆ (encode i).tail

theorem hlt : Statement .hlt := by simp [Statement, encode, Instr.mnemonic, Instr.registerOperands]; decide
theorem add (a : Byte) : Statement (.add a) := by
  simp [Statement, encode, Instr.mnemonic, Instr.registerOperands]; decide
theorem prn (a : Byte) : Statement (.prn a) := by
  simp [Statement, encode, Instr.mnemonic, Instr.registerOperands]; decide
theorem call (a : Byte) : Statement (.call a) := by
  simp [Statement, encode, Instr.mnemonic, Instr.registerOperands]; decide
theorem ldi (a b : Byte) : Statement (.ldi a b) := by
  simp [Statement, encode, Instr.mnemonic, Instr.registerOperands]; decide
theorem mul (a b : Byte) : Statement (.mul a b) := by
  simp [Statement, encode, Instr.mnemonic, Instr.registerOperands]; decide

end Sys2Proof.Laws.EncodingShape
end

