-- ==== Sys2Proof/Tests/Slice0.lean ====
section
/-! SUPPORT. Tests: expected results are the vectors of 95_test_vectors.md, the encodings of 30_encoding.md, or worked out
by hand from the rules named. Then one witness per statement that has hypotheses. -/

namespace Sys2Proof.Tests

open Sys2Proof Sys2Proof.Machine

/-! ### Helpers -/

/-- Bytes stored from address `k` on. -/
def loadFrom : Nat → List Byte → Memory → Memory
  | _, [], m => m
  | k, b :: bs, m => loadFrom (k + 1) bs (m.set k b)

/-- A created engine with `n` bytes of memory, the given bytes from address 0, and the clock started. -/
def running (n : Nat) (bytes : List Byte) : State := (State.create ⟨n, false⟩ (loadFrom 0 bytes [])).start

/-- The same with `DEBUG_TRACE` true. -/
def traced (n : Nat) (bytes : List Byte) : State := { running n bytes with params := ⟨n, true⟩ }

/-- The state after one tick. -/
def next (s : State) : State := afterEvent .tick s

/-! ### Ill-formed instructions are refused by the check (R22, R92, R239) -/

theorem test_illformed_add : (Instr.add 8).wellFormed = false := by decide
theorem test_illformed_prn : (Instr.prn 8).wellFormed = false := by decide
theorem test_illformed_call : (Instr.call 255).wellFormed = false := by decide
theorem test_illformed_ldi : (Instr.ldi 8 5).wellFormed = false := by decide
theorem test_illformed_mul_first : (Instr.mul 9 0).wellFormed = false := by decide
theorem test_illformed_mul_second : (Instr.mul 1 8).wellFormed = false := by decide
theorem test_wellformed : (Instr.ldi 7 255).wellFormed = true ∧ Instr.hlt.wellFormed = true := by decide

/-! ### Decoding: words written out bit by bit from R87 and R92 -/

theorem test_decode_hlt : decode ⟨0b00000001#8, 0b01100011#8, 0b11111010#8⟩ = .ok .hlt := by decide
theorem test_decode_add : decode ⟨0b00011000#8, 0b00000001#8, 0b01000011#8⟩ = .ok (.add 1) := by decide
theorem test_decode_prn : decode ⟨0b01000011#8, 0b00000100#8, 0b01000011#8⟩ = .ok (.prn 4) := by decide
theorem test_decode_call : decode ⟨0b01001000#8, 0b11001000#8, 0b00000001#8⟩ = .ok (.call 200) := by decide
theorem test_decode_ldi : decode ⟨0b10011001#8, 0b00000010#8, 0b11001000#8⟩ = .ok (.ldi 2 200) := by decide
theorem test_decode_mul : decode ⟨0b10101010#8, 0b00000010#8, 0b00000011#8⟩ = .ok (.mul 2 3) := by decide
/-- Opcode 65 has HLT's low six bits and is not HLT (R86, V-UNK2). -/
theorem test_decode_opid_is_not_enough :
    operationId 65 = operationId 1 ∧ decode ⟨65, 0, 0⟩ = .error (.unknownOpcode 65) := by decide
/-- The neighbours of the defined opcodes (V-UNK5). -/
theorem test_decode_neighbours :
    ∀ o ∈ ([0, 2, 23, 25, 66, 68, 71, 73, 152, 154, 169, 171, 255] : List Byte),
      decode ⟨o, 0, 0⟩ = .error (.unknownOpcode o) := by decide
/-- V-DEC. -/
theorem test_decode_lengths :
    ([0, 63, 64, 127, 128, 191, 192, 255] : List Byte).map decodeLength = [1, 1, 2, 2, 3, 3, 4, 4] := by decide
/-- The words of the opcode table: byte 0 is the least significant byte; ADD's row gives 8 bits. -/
theorem test_table_words :
    decodeTableWord 8 0x01 = some .hlt ∧ decodeTableWord 8 0x18 = some (.add 0) ∧
      decodeTableWord 16 0x0543 = some (.prn 5) ∧ decodeTableWord 16 0x0248 = some (.call 2) ∧
      decodeTableWord 24 0xC80399 = some (.ldi 3 200) ∧ decodeTableWord 24 0x0302AA = some (.mul 2 3) ∧
      decodeTableWord 8 0x00 = none := by decide
/-- The bytes of R92. -/
theorem test_encode :
    encode (.add 1) = [24, 1] ∧ encode (.ldi 0 8) = [153, 0, 8] ∧ encode (.mul 0 1) = [170, 0, 1] ∧
      encode (.prn 0) = [67, 0] ∧ encode (.call 2) = [72, 2] ∧ encode .hlt = [1] := by decide
/-- Too few bytes are rejected by name. -/
theorem test_decode_too_few : decodeBytes [1, 0] = .error .tooFewBytes := by decide

/-! ### One cycle (95_test_vectors.md part V) -/

/-- V-LDI2. -/
theorem test_ldi : let t := next (running 256 [153, 7, 255]); t.readReg 7 = 255 ∧ t.pc = 3 ∧ t.obs = [] := by decide
/-- V-LDI5: the whole byte is the index. -/
theorem test_ldi_bad_index :
    let t := next (running 256 [153, 8, 5])
    t.fault = some (.registerIndexOutOfRange 8) ∧ t.pc = 0 ∧ t.clockRunning = false ∧ t.readReg 0 = 0 := by decide
/-- V-MUL5: the product wraps. -/
theorem test_mul_wraps :
    let t := next (((running 256 [170, 2, 3]).writeReg 2 200).writeReg 3 3)
    t.readReg 2 = 88 ∧ t.readReg 3 = 3 ∧ t.pc = 3 := by decide
/-- V-MUL4: a source that is also the destination. -/
theorem test_mul_same_register : (next ((running 256 [170, 4, 4]).writeReg 4 225)).readReg 4 = 193 := by decide
/-- V-ADD1: the pc advances by 1, onto the operand byte. -/
theorem test_add : let t := next ((running 256 [24, 1, 0, 0]).writeReg 1 100); t.readReg 1 = 200 ∧ t.pc = 1 := by
  decide
/-- V-ADD6: the debug record holds the new value. -/
theorem test_add_traced :
    let t := next ((traced 256 [24, 2, 0, 0]).writeReg 2 3)
    t.readReg 2 = 6 ∧ t.obs = [⟨.add, 2, 6⟩] := by decide
/-- V-PRN1. -/
theorem test_prn :
    let t := next ((running 256 [67, 0, 1]).writeReg 0 72); t.obs = [⟨.prn, 0, 72⟩] ∧ t.pc = 2 := by decide
/-- V-CALL1: no jump to 88. -/
theorem test_call :
    let t := next ((running 256 [72, 2, 1]).writeReg 2 88); t.obs = [⟨.call, 2, 88⟩] ∧ t.pc = 2 := by decide
/-- V-HLT2: the operand bytes are ignored. -/
theorem test_hlt :
    let t := next ((running 256 [1, 99, 250]).writeReg 3 5)
    t.halt = true ∧ t.pc = 1 ∧ t.clockRunning = false ∧ t.readReg 3 = 5 ∧ t.status = .halted := by decide
/-- V-OOB2b: not even HLT runs without two bytes after it. -/
theorem test_hlt_overfetch :
    let t := next (running 2 [1, 0]); t.fault = some (.outOfBoundsAccess 2) ∧ t.halt = false ∧ t.pc = 0 := by decide
/-- V-UNK3: the pc is not advanced by 4. -/
theorem test_unknown_opcode :
    let t := next (running 256 [255, 200, 200]); t.fault = some (.unknownOpcode 255) ∧ t.pc = 0 := by decide
/-- V-PRI3: `A` is reported before `B`. -/
theorem test_priority_mul :
    (next (running 256 [170, 9, 12])).fault = some (.registerIndexOutOfRange 9) := by decide
/-- The codes of R190. -/
theorem test_fault_codes :
    [Fault.unknownOpcode 0, .outOfBoundsAccess 3, .registerIndexOutOfRange 8].map Fault.code = [1, 2, 3] := by decide
/-- V-HLT3 and R36: in HALTED, `start()` and a tick run no cycle. -/
theorem test_halted_stays :
    let t := next (running 256 [1, 0, 0]); afterEvents [.start, .tick, .stop] t = t := by decide

/-! ### The host's interface -/

/-- A `poke` is stored modulo 256, and storing what an unlisted address reads as lists nothing. -/
theorem test_poke : (afterEvents [.poke 5 257, .poke 6 256] (running 256 []).stop).mem = [(5, 1)] := by decide
/-- Writes in any order give the same canonical memory. -/
theorem test_memory_canonical :
    Memory.set (Memory.set (Memory.set [] 2 7) 1 9) 2 0 = [(1, 9)] ∧ Memory.wf (Memory.set [] 1 9) := by decide
/-- The step after placing a word is the instruction's meaning, from the reset state. -/
theorem test_fetch_word :
    step (State.reset.withFetchWord 24 0xC80399) = exec (.ldi 3 200) (State.reset.withFetchWord 24 0xC80399) := rfl
/-- From reset with nothing placed and the clock stopped, a step changes nothing (R110). -/
theorem test_reset_step : step State.reset = .next State.reset := rfl

/-! ### Witnesses: states and operands that meet the hypotheses of each statement -/

theorem witness_DecodeEncodeRoundTrip : 2 ≤ ([0, 0] : List Byte).length := by decide
theorem witness_DecodedDescriptorReencodes : decode ⟨170, 255, 8⟩ = .ok (.mul 255 8) := by decide
theorem witness_LengthFormulaForAllOpcodes :
    (63#8).toNat ≤ 63 ∧ 64 ≤ (64#8).toNat ∧ (127#8).toNat ≤ 127 ∧ 128 ≤ (128#8).toNat ∧ (191#8).toNat ≤ 191 ∧
      192 ≤ (192#8).toNat := by decide
theorem witness_DispatchOnWholeOpcodeByte :
    (170 : Byte) ∈ ([1, 24, 67, 72, 153, 170] : List Byte) ∧ (0 : Byte) ∉ ([1, 24, 67, 72, 153, 170] : List Byte) := by
  decide
theorem witness_StepRunsDecodedInstruction :
    let s := running 3 [153, 7, 255]
    s.gateOpen = true ∧ s.pc + 2 < s.params.memSize ∧
      decode ⟨s.mem.get s.pc, s.mem.get (s.pc + 1), s.mem.get (s.pc + 2)⟩ = .ok (.ldi 7 255) := by decide
theorem witness_TickRunsCycleOnlyThroughGate :
    ((running 256 []).clockRunning = true ∧ (running 256 []).halt = false ∧ (running 256 []).fault = none) ∧
      State.reset.clockRunning = false ∧ (next (running 256 [1])).halt = true ∧
      (next (running 256 [])).fault ≠ none := by decide
/-- Each clause of the priority, at the boundary of its range. -/
theorem witness_ErrorPriority :
    (let s := running 0 []; s.gateOpen = true ∧ s.params.memSize ≤ s.pc) ∧
      (let s := running 1 [1]; s.gateOpen = true ∧ s.pc < s.params.memSize ∧ s.params.memSize ≤ s.pc + 1) ∧
      (let s := running 2 [170, 9]; s.gateOpen = true ∧ s.pc + 1 < s.params.memSize ∧ s.params.memSize ≤ s.pc + 2) ∧
      (let s := running 3 [0, 9, 9]
       s.gateOpen = true ∧ s.pc + 2 < s.params.memSize ∧
        s.mem.get s.pc ∉ ([1, 24, 67, 72, 153, 170] : List Byte)) ∧
      (let s := running 3 [170, 8, 12]
       s.gateOpen = true ∧ s.pc + 2 < s.params.memSize ∧ s.mem.get s.pc ∈ ([24, 67, 72, 153, 170] : List Byte) ∧
        7 < (s.mem.get (s.pc + 1)).toNat) ∧
      (let s := running 3 [170, 7, 8]
       s.gateOpen = true ∧ s.pc + 2 < s.params.memSize ∧ s.mem.get s.pc = 170 ∧ (s.mem.get (s.pc + 1)).toNat ≤ 7 ∧
        7 < (s.mem.get (s.pc + 2)).toNat) := by decide
theorem witness_FaultingCycleChangesOnlyFaultAndClock :
    FaultingCycle (running 3 [153, 8, 5]) (.registerIndexOutOfRange 8) (next (running 3 [153, 8, 5])) :=
  ⟨by decide, rfl, by decide⟩
/-- A completed cycle of each of the six opcodes, at the last address an opcode can execute from. -/
theorem witness_completed_cycles :
    CompletedCycle (running 3 [1, 0, 0]) (next (running 3 [1, 0, 0])) ∧
      CompletedCycle (running 3 [24, 7, 0]) (next (running 3 [24, 7, 0])) ∧
      CompletedCycle (running 3 [67, 7, 0]) (next (running 3 [67, 7, 0])) ∧
      CompletedCycle (running 3 [72, 0, 0]) (next (running 3 [72, 0, 0])) ∧
      CompletedCycle (running 3 [153, 0, 8]) (next (running 3 [153, 0, 8])) ∧
      CompletedCycle (running 3 [170, 7, 7]) (next (running 3 [170, 7, 7])) :=
  ⟨⟨by decide, rfl, by decide⟩, ⟨by decide, rfl, by decide⟩, ⟨by decide, rfl, by decide⟩,
    ⟨by decide, rfl, by decide⟩, ⟨by decide, rfl, by decide⟩, ⟨by decide, rfl, by decide⟩⟩
theorem witness_PcAdvancesByEncodedLength :
    CompletedCycle (running 3 [24, 7, 0]) (next (running 3 [24, 7, 0])) ∧
      (running 3 [24, 7, 0]).mem.get (running 3 [24, 7, 0]).pc = 24 ∧
      FaultingCycle (running 3 [0]) (.unknownOpcode 0) (next (running 3 [0])) ∧
      HostEvent.start ≠ .tick ∧ HostEvent.start ≠ .reset :=
  ⟨⟨by decide, rfl, by decide⟩, by decide, ⟨by decide, rfl, by decide⟩, by decide, by decide⟩
theorem witness_StepLeavesMemoryUnchanged : step (running 3 [153, 0, 8]) = .next (next (running 3 [153, 0, 8])) := rfl
theorem witness_RegistersReadAndWritten :
    (step (running 3 [153, 7, 8]) = .next (next (running 3 [153, 7, 8])) ∧
      (next (running 3 [153, 7, 8])).readReg 7 ≠ (running 3 [153, 7, 8]).readReg 7) ∧
      ((∀ a ∈ (Instr.ldi 7 8).sourceOperands, a.toNat ≠ (7 : RegIndex).val) ∧
        exec (.ldi 7 8) State.reset = .next (State.reset.finish 153 (handleLdi 7 8 State.reset))) ∧
      HostEvent.stop ≠ .tick ∧ HostEvent.stop ≠ .reset :=
  ⟨⟨rfl, by decide⟩, ⟨by decide, rfl⟩, by decide, by decide⟩
theorem witness_OnlyHltRaisesHalt :
    step (running 3 [1]) = .next (next (running 3 [1])) ∧ (running 3 [1]).halt = false ∧
      (next (running 3 [1])).halt = true := ⟨rfl, by decide, by decide⟩
theorem witness_RecordsOfACompletedCycle :
    CompletedCycle (traced 3 [170, 7, 7]) (next (traced 3 [170, 7, 7])) ∧
      ((traced 3 [170, 7, 7]).mem.get ((traced 3 [170, 7, 7]).pc + 1)).toNat = (7 : RegIndex).val ∧
      (traced 3 [170, 7, 7]).mem.get (traced 3 [170, 7, 7]).pc = 170 :=
  ⟨⟨by decide, rfl, by decide⟩, by decide, by decide⟩
theorem witness_ObservationIsAppendOnly : step (running 3 [67, 0]) = .next (next (running 3 [67, 0])) := rfl
theorem witness_CycleCompletesExactlyWhenNoErrorApplies : (running 3 [1]).gateOpen = true := by decide
theorem witness_OverFetchAtTheTopOfMemory :
    (let s := running 2 [1]; s.gateOpen = true ∧ s.pc < s.params.memSize ∧ s.params.memSize ≤ s.pc + 2) ∧
      (let s := running 1 [1]; s.gateOpen = true ∧ s.pc < s.params.memSize ∧ s.params.memSize ≤ s.pc + 2) ∧
      (let s := running 3 [1]; s.gateOpen = true ∧ s.pc + 3 = s.params.memSize ∧ s.mem.get s.pc = 1) := by decide
theorem witness_AddOperandIsTheNextOpcode :
    (let s := running 4 [24, 1]
     s.gateOpen = true ∧ s.pc + 2 < s.params.memSize ∧ s.mem.get s.pc = 24 ∧ s.mem.get (s.pc + 1) = 1 ∧
      s.pc + 3 < s.params.memSize) ∧
      (let s := running 4 [24, 7]
       s.gateOpen = true ∧ s.mem.get s.pc = 24 ∧ s.mem.get (s.pc + 1) ∈ ([0, 2, 3, 4, 5, 6, 7] : List Byte) ∧
        s.pc + 3 < s.params.memSize) ∧
      (let s := running 3 [24, 8]
       s.gateOpen = true ∧ s.pc + 2 < s.params.memSize ∧ s.mem.get s.pc = 24 ∧ 8 ≤ (s.mem.get (s.pc + 1)).toNat) := by
  decide
theorem witness_EveryRunEnds : (running 256 [153, 0, 7]).clockRunning = true := by decide
theorem witness_ClockStopsExactlyAtTheEnd :
    (running 3 [1]).gateOpen = true ∧ step (running 3 [1]) = .next (next (running 3 [1])) ∧
      (next (running 3 [1])).clockRunning = false := ⟨by decide, rfl, by decide⟩
theorem witness_OnlyThreeBytesMatter :
    (∀ k ≤ 2, Memory.get [(0, 1), (3, 99)] ((running 4 [1]).pc + k) = (running 4 [1]).mem.get ((running 4 [1]).pc + k)) ∧
      step (running 4 [1]) = .next (next (running 4 [1])) := ⟨by decide, rfl⟩
theorem witness_DebugTraceChangesObservationsOnly :
    step (running 3 [153, 0, 8]) = .next (next (running 3 [153, 0, 8])) := rfl
/-- The index clauses of the six instructions' statements, at their boundaries. -/
theorem witness_instruction_results :
    (7#8).toNat < 8 ∧ (0#8).toNat < 8 ∧ 7 < (8#8).toNat ∧ 7 < (255#8).toNat := by decide
theorem witness_WellFormedInstructionsComplete :
    Instr.hlt.wellFormed = true ∧ (Instr.add 7).wellFormed = true ∧ (Instr.prn 0).wellFormed = true ∧
      (Instr.call 7).wellFormed = true ∧ (Instr.ldi 7 255).wellFormed = true ∧ (Instr.mul 0 7).wellFormed = true := by
  decide
theorem witness_FirstBadRegisterOperandIsTheError :
    (Instr.mul 7 8).registerOperands.find? (fun b => decide (7 < b.toNat)) = some 8 ∧
      (Instr.mul 8 255).registerOperands.find? (fun b => decide (7 < b.toNat)) = some 8 ∧
      (Instr.ldi 255 0).registerOperands.find? (fun b => decide (7 < b.toNat)) = some 255 := by decide
theorem witness_RegisterPreservingInstructionsFrame :
    (Instr.hlt.destinationOperands = [] ∧ exec .hlt State.reset = .next (State.reset.raiseHalt.advance 1)) ∧
      ((Instr.prn 7).destinationOperands = [] ∧ (Instr.prn 7).wellFormed = true ∧ Instr.prn 7 ≠ .hlt ∧
        exec (.prn 7) State.reset = .next ((State.reset.emit .prn 7 0).advance 67)) ∧
      (exec (.call 8) State.reset = .next (State.reset.raise (.registerIndexOutOfRange 8))) :=
  ⟨⟨by decide, rfl⟩, ⟨by decide, by decide, by decide, rfl⟩, rfl⟩
theorem witness_RegisterWritingInstructionsFrame :
    (Instr.ldi 7 255).destinationOperands ≠ [] ∧ (Instr.ldi 7 255).wellFormed = true ∧
      (∀ a ∈ (Instr.ldi 7 255).destinationOperands, a.toNat ≠ (6 : RegIndex).val) ∧
      State.reset.params.debugTrace = false ∧
      exec (.ldi 7 255) State.reset = .next (State.reset.finish 153 (handleLdi 7 255 State.reset)) :=
  ⟨by decide, by decide, by decide, by decide, rfl⟩
theorem witness_StatusFromHaltAndFault :
    (next (running 3 [0])).fault ≠ none ∧
      ((next (running 3 [1])).fault = none ∧ (next (running 3 [1])).halt = true) ∧
      (State.reset.fault = none ∧ State.reset.halt = false) ∧ (next (running 3 [1])).status ≠ .running := by decide
theorem witness_TerminalStatusIsForever :
    HostEvent.reset ∉ [HostEvent.start, .tick, .stop, .poke 0 1, .tick] ∧
      (next (running 3 [1])).status ≠ .running ∧ (next (running 3 [0])).status ≠ .running := by decide
theorem witness_OnlyResetClearsHaltAndFault :
    HostEvent.start ≠ .reset ∧ (next (running 3 [1])).halt = true ∧
      (next (running 3 [0])).fault = some (.unknownOpcode 0) := by decide
theorem witness_HostEventsLeaveTheEngineAlone : HostEvent.poke 0 1 ≠ .tick ∧ HostEvent.poke 0 1 ≠ .reset := by decide
theorem witness_StartAndStopOnlyMoveTheClock : (running 3 [1]).clockRunning = true := by decide
theorem witness_PokeWritesOneByte :
    State.reset.clockRunning = false ∧ 255 < State.reset.params.memSize ∧ State.reset.mem.wf := by decide
theorem witness_PokeRefusedChangesNothing :
    (running 256 []).clockRunning = true ∧ State.reset.clockRunning = false ∧ State.reset.params.memSize ≤ 256 := by
  decide
theorem witness_EqualMemoriesAreEqualData :
    Memory.wf [(1, 9)] ∧ Memory.wf (Memory.set [] 1 9) ∧ Memory.wf ([] : Memory) := by decide
theorem witness_EqualMemoriesAreEqualData_reads :
    ∀ a, Memory.get [(1, 9)] a = Memory.get (Memory.set [] 1 9) a := fun _ => rfl
theorem witness_ResetEventKeepsMemory :
    2 < (running 3 [1]).params.memSize ∧
      decode ⟨(running 3 [1]).mem.get 0, (running 3 [1]).mem.get 1, (running 3 [1]).mem.get 2⟩ = .ok .hlt := by decide
theorem witness_ReachableStateLawsHoldAtReset :
    Memory.wf [(1, 9)] ∧ Memory.within [(1, 9)] (⟨2, true⟩ : Params).memSize := by decide
/-- The invariant holds of a state that is running, one that is halted and one that is faulted. -/
theorem witness_Inv :
    Inv (running 3 [1]) ∧ Inv (next (running 3 [1])) ∧ Inv (next (running 2 [1])) ∧
      Inv (next (traced 3 [153, 7, 255])) :=
  ⟨⟨by decide, by decide, by decide, by decide, by decide, by decide⟩,
    ⟨by decide, by decide, by decide, by decide, by decide, by decide⟩,
    ⟨by decide, by decide, by decide, by decide, by decide, by decide⟩,
    ⟨by decide, by decide, by decide, by decide, by decide, by decide⟩⟩
theorem witness_EveryStepKeepsReachableStateLaws :
    Inv (running 3 [1]) ∧ step (running 3 [1]) = .next (next (running 3 [1])) := ⟨witness_Inv.1, rfl⟩
theorem witness_HostEventsKeepReachableStateLaws : Inv (running 3 [1]) := witness_Inv.1
theorem witness_PlacedWordIsRunNext :
    State.reset.mem.wf ∧ decodeTableWord 24 0xC80399 = some (.ldi 3 200) := by decide

end Sys2Proof.Tests
end

/-! The statements about the state: what a step can do to each field, what the host's events leave alone, and the
invariant of every reachable state. -/

namespace Sys2Proof.Machine

/-! ### What each operation does to the terms of the claims -/

theorem faultRecordOk_of_fault_none {s : State} (h : s.fault = none) : s.faultRecordOk = true := by
  simp [State.faultRecordOk, h]

/-- Which records are legal depends on the parameters only (R174). -/
theorem recordOk_congr {s t : State} (h : t.params = s.params) (r : Record) : t.recordOk r = s.recordOk r := by
  simp [State.recordOk, h]

/-- The PC advances by at most 3 (R87). -/
theorem decodeLength_opcodeByte_le (m : Mnemonic) : decodeLength (opcodeByte m) ≤ 3 := by
  rw [decodeLength_opcodeByte]; cases m <;> decide

/-- A debug record is written under `DEBUG_TRACE` only (R173). -/
theorem debugRecords_cases (p : Params) (tag : Mnemonic) (i : RegIndex) (v : Byte) :
    debugRecords p tag i v = [] ∨ p.debugTrace = true ∧ debugRecords p tag i v = [⟨tag, i, v⟩] := by
  unfold debugRecords
  split
  · next h => exact .inr ⟨h, rfl⟩
  · exact .inl rfl

/-- The debug record is one that R174 allows. -/
theorem debugEmit_obs_cases {tag : Mnemonic} (ht : tag ∈ [Mnemonic.add, .ldi, .mul]) (k : RegIndex) (s : State) :
    (s.debugEmit tag k).obs = s.obs ∨ ∃ r, s.recordOk r = true ∧ (s.debugEmit tag k).obs = s.obs ++ [r] := by
  rw [debugEmit_obs]
  rcases debugRecords_cases s.params tag k (s.readReg k) with hr | ⟨hd, hr⟩ <;> rw [hr]
  · exact .inl (List.append_nil _)
  · have hok : s.recordOk ⟨tag, k, s.readReg k⟩ = true := by
      simp only [List.mem_cons, List.not_mem_nil, or_false] at ht
      rcases ht with rfl | rfl | rfl <;> exact hd
    exact .inr ⟨_, hok, rfl⟩

/-- A handler appends nothing, or one record that R174 allows. -/
theorem Handled.obs_cases {s u : State} {i : Instr} (h : Handled s i u) :
    u.obs = s.obs ∨ ∃ r, s.recordOk r = true ∧ u.obs = s.obs ++ [r] := by
  cases h with
  | hlt => exact .inl rfl
  | prn a k ha => exact .inr ⟨_, rfl, rfl⟩
  | call a k ha => exact .inr ⟨_, rfl, rfl⟩
  | add a k ha => exact debugEmit_obs_cases (by simp) k (s.writeReg k _)
  | ldi a b k ha => exact debugEmit_obs_cases (by simp) k (s.writeReg k _)
  | mul a b k l ha hb => exact debugEmit_obs_cases (by simp) k (s.writeReg k _)

/-- No handler but HLT's touches the halt flag (R28). -/
theorem Handled.halt_cases {s u : State} {i : Instr} (h : Handled s i u) :
    (i = .hlt ∧ u = s.raiseHalt) ∨ u.halt = s.halt := by
  cases h with
  | hlt => exact .inl ⟨rfl, rfl⟩
  | _ => exact .inr (by simp)

/-- A handler changes no register but its destination (R24). -/
theorem Handled.readReg_eq {s u : State} {i : Instr} {r : RegIndex} (h : Handled s i u)
    (hr : ∀ a ∈ i.destinationOperands, a.toNat ≠ r.val) : u.readReg r = s.readReg r := by
  have written (tag : Mnemonic) (k : RegIndex) (v : Nat) (hk : k.val ≠ r.val) :
      ((s.writeReg k v).debugEmit tag k).readReg r = s.readReg r := by
    rw [State.readReg, debugEmit_x]
    exact readReg_writeReg_other k r v s fun h => hk (congrArg Fin.val h.symm)
  cases h with
  | hlt => rfl
  | prn a k ha => rfl
  | call a k ha => rfl
  | add a k ha => exact written _ _ _ (ha ▸ hr a List.mem_cons_self)
  | ldi a b k ha => exact written _ _ _ (ha ▸ hr a List.mem_cons_self)
  | mul a b k l ha hb => exact written _ _ _ (ha ▸ hr a List.mem_cons_self)

/-- The destination of a decoded instruction is its byte `A`, and only ADD, LDI and MUL have one (R24). -/
theorem decode_destination {d : Descriptor} {i : Instr} {a : Byte} (hd : decode d = .ok i)
    (ha : a ∈ i.destinationOperands) : d.ir ∈ ([24, 153, 170] : List Byte) ∧ a = d.a := by
  obtain ⟨hir, hi⟩ := decode_ok_cases hd
  rw [hir]
  rcases hi with rfl | rfl | rfl | rfl | rfl | rfl
  · cases ha
  · exact ⟨by simp [Instr.mnemonic, opcodeByte], List.mem_singleton.mp ha⟩
  · cases ha
  · cases ha
  · exact ⟨by simp [Instr.mnemonic, opcodeByte], List.mem_singleton.mp ha⟩
  · exact ⟨by simp [Instr.mnemonic, opcodeByte], List.mem_singleton.mp ha⟩

/-! ### What a step can do -/

/-- What a step from `s` can leave: the same state, the state with an error raised that R191 to R193 allow
wherever `pc` is within `0 .. MEM_SIZE`, or the state after a handler ran to its end and `pc` advanced. -/
inductive Stepped (s : State) : State → Prop where
  | idle (hg : s.gateOpen = false) : Stepped s s
  | raised (hg : s.gateOpen = true) (e : Fault)
      (hok : s.pc ≤ s.params.memSize → (s.raise e).faultRecordOk = true) : Stepped s (s.raise e)
  | completed (hg : s.gateOpen = true) (hb : s.pc + 2 < s.params.memSize) (i : Instr) (u : State)
      (hd : decode ⟨s.mem.get s.pc, s.mem.get (s.pc + 1), s.mem.get (s.pc + 2)⟩ = .ok i) (hu : Handled s i u) :
      Stepped s (u.advance (opcodeByte i.mnemonic))

/-- The address of an out-of-bounds fetch is `MEM_SIZE` when `pc` is within `0 .. MEM_SIZE` (R192). -/
theorem fetch_error_addr {s : State} {addr : Nat} (hf : s.fetch = .error (.outOfBoundsAccess addr))
    (hpc : s.pc ≤ s.params.memSize) : addr = s.params.memSize := by
  rcases fetch_cases s with ⟨-, h⟩ | ⟨hb, h⟩ | ⟨hb, h⟩ | ⟨hb, h⟩ <;> rw [h] at hf <;> cases hf
  all_goals omega

/-- Every step answers a next state, and it is one of these. -/
theorem exists_stepped (s : State) : ∃ t, step s = .next t ∧ Stepped s t := by
  rcases step_cases s with ⟨hg, h⟩ | ⟨hg, hb, addr, hf, h⟩ | ⟨hg, hb, hd, h⟩ |
    ⟨hg, hb, i, hd, -, ⟨u, hu, h⟩ | ⟨a, -, ha, h⟩⟩
  · exact ⟨_, h, .idle hg⟩
  · exact ⟨_, h, .raised hg _ fun hpc => by simp [State.faultRecordOk, fetch_error_addr hf hpc, hb]⟩
  · exact ⟨_, h, .raised hg _ fun _ => by simp [State.faultRecordOk, hd, hb]⟩
  · exact ⟨_, h, .completed hg hb i u hd hu⟩
  · exact ⟨_, h, .raised hg _ fun _ => by simp [State.faultRecordOk, hb, show 8 ≤ a.toNat from ha]⟩

theorem stepped_of_step {s t : State} (h : step s = .next t) : Stepped s t := by
  obtain ⟨t', h', hs⟩ := exists_stepped s
  rw [h] at h'
  cases h'
  exact hs

/-- A cycle whose handler ran to its end recorded no error. -/
theorem completed_fault_none {s u : State} {i : Instr} (hg : s.gateOpen = true) (hu : Handled s i u) (ir : Byte) :
    (u.advance ir).fault = none := by
  rw [advance_fault, hu.fault_eq]
  exact ((gateOpen_iff s).mp hg).2.1

/-- A completed cycle moves `pc` by the encoded length of the opcode byte (R115). -/
theorem completedCycle_pc {s t : State} (h : CompletedCycle s t) :
    t.pc = s.pc + decodeLength (s.mem.get s.pc) := by
  obtain ⟨hg, hstep, hf⟩ := h
  cases stepped_of_step hstep with
  | idle hc => simp [hc] at hg
  | raised _ e _ => simp at hf
  | completed _ hb i u hd hu => rw [advance_pc, hu.pc_eq, ← (decode_ok_cases hd).1]

/-- A faulting cycle does nothing but raise its error (R116). -/
theorem faultingCycle_eq_raise {s t : State} {e : Fault} (h : FaultingCycle s e t) : t = s.raise e := by
  obtain ⟨hg, hstep, hf⟩ := h
  cases stepped_of_step hstep with
  | idle hc => simp [hc] at hg
  | raised _ e' _ => rw [raise_fault, Option.some.injEq] at hf; rw [hf]
  | completed _ hb i u hd hu => rw [completed_fault_none hg hu] at hf; cases hf

/-! ### What the host's events leave alone -/

/-- `poke`, `start()` and `stop()` change at most the memory and the clock. -/
theorem afterEvent_eq_of_hostOnly {ev : HostEvent} (s : State) (ht : ev ≠ .tick) (hr : ev ≠ .reset) :
    ∃ m c, afterEvent ev s = { s with mem := m, clockRunning := c } := by
  cases ev with
  | poke addr v =>
    rcases afterEvent_poke_cases s addr v with ⟨-, -, h⟩ | h
    · exact ⟨_, _, h⟩
    · exact ⟨_, _, h⟩
  | start => exact ⟨_, _, rfl⟩
  | stop => exact ⟨_, _, rfl⟩
  | tick => exact absurd rfl ht
  | reset => exact absurd rfl hr

/-- Settles O41: the three events change the memory and the clock at most. -/
theorem hostEventsLeaveTheEngineAlone : Obligations.HostEventsLeaveTheEngineAlone := by
  intro ev s ht hr
  obtain ⟨m, c, h⟩ := afterEvent_eq_of_hostOnly s ht hr
  simp [SameEngine, h]

/-- Settles O40: with `halt` or `fault` set the gate is closed to a tick, and no other event but reset touches them. -/
theorem onlyResetClearsHaltAndFault : Obligations.OnlyResetClearsHaltAndFault := by
  intro ev s hr
  by_cases ht : ev = .tick
  · subst ht
    have closed (h : ¬ (s.fault = none ∧ s.halt = false)) : afterEvent .tick s = s :=
      afterEvent_tick (step_of_gate_closed (Bool.eq_false_iff.mpr fun hg => h ((gateOpen_iff s).mp hg).2))
    constructor
    · intro hh
      rwa [closed (by simp [hh])]
    · intro e he
      rwa [closed (by simp [he])]
  · obtain ⟨⟨-, -, hh, hf⟩, -, -⟩ := hostEventsLeaveTheEngineAlone ev s ht hr
    exact ⟨fun h => hh ▸ h, fun e he => hf ▸ he⟩

/-- Settles O38: the status by its definition, and the gate closed outside RUNNING. -/
theorem statusFromHaltAndFault : Obligations.StatusFromHaltAndFault := by
  intro s
  refine ⟨fun hf => ?_, fun hf hh => ?_, fun hf hh => ?_, fun hs => ?_⟩
  · obtain ⟨e, he⟩ := Option.ne_none_iff_exists'.mp hf
    simp [State.status, he]
  · simp [State.status, hf, hh]
  · exact (status_running_iff s).mpr ⟨hf, hh⟩
  · exact step_of_gate_closed (by simp [State.gateOpen, hs])

/-- Settles O42: both events are one update of the clock; that `start()` undoes `stop()` uses that the clock ran. -/
theorem startAndStopOnlyMoveTheClock : Obligations.StartAndStopOnlyMoveTheClock := by
  intro s
  refine ⟨rfl, rfl, rfl, rfl, fun hc => ?_⟩
  simp [State.start, State.stop, ← hc]

/-- Settles O47: every field of a created state, as R38 lists it. -/
theorem stateAfterReset : Obligations.StateAfterReset := by
  refine ⟨fun p m => ⟨fun r => ?_, rfl, rfl, rfl, rfl, rfl, rfl, rfl, rfl⟩, rfl⟩
  simp [State.readReg, State.create]

/-! ### What a step changes: `pc`, the halt flag, the records, the registers -/

/-- Settles O11: a completed cycle moves `pc` by the encoded length, raising an error keeps it, and so do the host's
events. -/
theorem pcAdvancesByEncodedLength : Obligations.PcAdvancesByEncodedLength := by
  refine ⟨fun s t h => ?_, fun s t e h => ?_, fun ev s ht hr => ?_⟩
  · have hpc := completedCycle_pc h
    have opcode (o : Byte) (n : Nat) (hn : decodeLength o = n) (ho : s.mem.get s.pc = o) : t.pc = s.pc + n := by
      rw [hpc, ho, hn]
    exact ⟨hpc, opcode 1 1 rfl, opcode 24 1 rfl, opcode 67 2 rfl, opcode 72 2 rfl, opcode 153 3 rfl,
      opcode 170 3 rfl⟩
  · rw [faultingCycle_eq_raise h, raise_pc]
  · obtain ⟨⟨-, hpc, -, -⟩, -, -⟩ := hostEventsLeaveTheEngineAlone ev s ht hr
    exact hpc.symm

/-- Settles O14: neither an idle step nor an error touches `halt`, and of the handlers only HLT's does. -/
theorem onlyHltRaisesHalt : Obligations.OnlyHltRaisesHalt := by
  intro s t hstep hs ht
  cases stepped_of_step hstep with
  | idle _ => simp [hs] at ht
  | raised _ e _ => simp [hs] at ht
  | completed hg hb i u hd hu =>
    rcases hu.halt_cases with ⟨rfl, rfl⟩ | hh
    · exact ⟨(decode_ok_cases hd).1, ⟨hg, hstep, completed_fault_none hg hu _⟩, rfl, rfl, rfl, rfl⟩
    · simp [hh, hs] at ht

/-- Settles O16: only a handler emits, and it emits at most once. -/
theorem observationIsAppendOnly : Obligations.ObservationIsAppendOnly := by
  intro s t hstep
  cases stepped_of_step hstep with
  | idle _ => exact .inl rfl
  | raised _ e _ => exact .inl rfl
  | completed hg hb i u hd hu => exact hu.obs_cases.imp_right fun ⟨r, _, hr⟩ => ⟨r, hr⟩

/-! ### The handlers, and which registers they read -/

/-- The handler of each instruction: step 4 of the cycle, which `exec` follows by the error entry or the PC advance
(R113, R114). -/
def handler : Instr → State → Except Fault State
  | .hlt, s => .ok s.raiseHalt
  | .add a, s => handleAdd a s
  | .prn a, s => reportRegister .prn a s
  | .call a, s => reportRegister .call a s
  | .ldi a b, s => handleLdi a b s
  | .mul a b, s => handleMul a b s

theorem exec_eq_finish (i : Instr) (s : State) :
    exec i s = .next (s.finish (opcodeByte i.mnemonic) (handler i s)) := by
  cases i <;> rfl

/-- The handlers check their register operands in the order in which the instruction lists them (R144, R194). -/
theorem handler_of_firstBadOperand {i : Instr} {c : Byte}
    (h : i.registerOperands.find? (fun b => decide (7 < b.toNat)) = some c) (s : State) :
    handler i s = .error (.registerIndexOutOfRange c) := by
  have bad : 7 < c.toNat := by simpa using List.find?_some h
  have one {a : Byte} (h : [a].find? (fun b => decide (7 < b.toNat)) = some c) : c = a :=
    List.mem_singleton.mp (List.mem_of_find?_eq_some h)
  cases i with
  | hlt => cases h
  | add a => obtain rfl := one h; exact withRegister_error bad _
  | prn a => obtain rfl := one h; exact withRegister_error bad _
  | call a => obtain rfl := one h; exact withRegister_error bad _
  | ldi a b => obtain rfl := one h; exact withRegister_error bad _
  | mul a b =>
    rcases Nat.lt_or_ge 7 a.toNat with ha | ha
    · obtain rfl : a = c := by simpa [Instr.registerOperands, ha] using h
      exact withRegisters_error_first ha _ _
    · obtain rfl : c = b := one (by simpa [Instr.registerOperands, Nat.not_lt.mpr ha] using h)
      exact withRegisters_error_second (by omega) bad _

/-- Settles O32: the handler answers that error, and `exec` raises it. -/
theorem firstBadRegisterOperandIsTheError : Obligations.FirstBadRegisterOperandIsTheError := by
  intro i s a h
  rw [exec_eq_finish, handler_of_firstBadOperand h]
  rfl

/-- A meaning with a register operand above 7 raises the same error in every state. -/
theorem exec_of_badOperand {i : Instr} {a : Byte} (ha : a ∈ i.registerOperands) (hbad : 7 < a.toNat) :
    ∃ e, ∀ s, exec i s = .next (s.raise e) := by
  cases hc : i.registerOperands.find? (fun b => decide (7 < b.toNat)) with
  | none => exact absurd hbad (by simpa using List.find?_eq_none.mp hc a ha)
  | some c => exact ⟨_, fun s => firstBadRegisterOperandIsTheError i s c hc⟩

theorem withRegister_of_index {a : Byte} {i : RegIndex} (h : a.toNat = i.val) (k : RegIndex → State) :
    withRegister a k = .ok (k i) := by
  rw [withRegister_ok (h ▸ i.isLt)]
  exact congrArg (fun j => Except.ok (k j)) (Fin.ext h)

theorem withRegisters_of_index {a b : Byte} {i j : RegIndex} (ha : a.toNat = i.val) (hb : b.toNat = j.val)
    (k : RegIndex → RegIndex → State) : withRegisters a b k = .ok (k i j) := by
  rw [withRegisters_ok (ha ▸ i.isLt) (hb ▸ j.isLt)]
  exact congrArg₂ (fun i j => Except.ok (k i j)) (Fin.ext ha) (Fin.ext hb)

/-- `Handled` holds of the handler's own result, so `exec` answers it with the PC advanced: the converse of
`exec_cases`. -/
theorem exec_of_handled {s u : State} {i : Instr} (h : Handled s i u) :
    exec i s = .next (u.advance (opcodeByte i.mnemonic)) := by
  have hu : handler i s = .ok u := by
    cases h with
    | hlt => rfl
    | add a k ha => exact withRegister_of_index ha _
    | prn a k ha => exact withRegister_of_index ha _
    | call a k ha => exact withRegister_of_index ha _
    | ldi a b k ha => exact withRegister_of_index ha _
    | mul a b k l ha hb => exact withRegisters_of_index ha hb _
  rw [exec_eq_finish, hu]
  rfl

/-! Writes to registers commute with everything that does not read or write the same register. -/

theorem writeReg_toNat (r : RegIndex) (v : Byte) (s : State) : s.writeReg r v.toNat = { s with x := s.x.set r v } := by
  simp [State.writeReg]

theorem writeReg_writeReg_same (r : RegIndex) (v w : Nat) (s : State) :
    (s.writeReg r v).writeReg r w = s.writeReg r w := by
  simp [State.writeReg]

theorem writeReg_comm {r k : RegIndex} (h : k ≠ r) (v w : Nat) (s : State) :
    (s.writeReg r v).writeReg k w = (s.writeReg k w).writeReg r v := by
  simp only [State.writeReg]
  rw [Vector.set_comm _ _ (fun hrk => h (Fin.ext hrk.symm))]

theorem debugEmit_writeReg_other {r k : RegIndex} (h : k ≠ r) (v : Nat) (tag : Mnemonic) (s : State) :
    (s.writeReg r v).debugEmit tag k = (s.debugEmit tag k).writeReg r v := by
  simp only [debugEmit_eq, readReg_writeReg_other r k v s h]
  rfl

/-- A register that a handler neither reads nor writes can hold any value and keeps it (R24). -/
theorem Handled.writeReg_kept {s u : State} {i : Instr} {r : RegIndex} (h : Handled s i u) (v : Nat)
    (hsrc : ∀ a ∈ i.sourceOperands, a.toNat ≠ r.val) (hdst : ∀ a ∈ i.destinationOperands, a.toNat ≠ r.val) :
    Handled (s.writeReg r v) i (u.writeReg r v) := by
  have other {a : Byte} {k : RegIndex} (ha : a.toNat = k.val) (hne : a.toNat ≠ r.val) : k ≠ r :=
    fun hk => hne (hk ▸ ha)
  cases h with
  | hlt => exact .hlt
  | add a k ha =>
    have hk := other ha (hsrc a List.mem_cons_self)
    rw [← debugEmit_writeReg_other hk, ← writeReg_comm hk, ← readReg_writeReg_other r k v s hk]
    exact .add a k ha
  | prn a k ha =>
    have hk := other ha (hsrc a List.mem_cons_self)
    rw [← readReg_writeReg_other r k v s hk]
    exact .prn a k ha
  | call a k ha =>
    have hk := other ha (hsrc a List.mem_cons_self)
    rw [← readReg_writeReg_other r k v s hk]
    exact .call a k ha
  | ldi a b k ha =>
    have hk := other ha (hdst a List.mem_cons_self)
    rw [← debugEmit_writeReg_other hk, ← writeReg_comm hk]
    exact .ldi a b k ha
  | mul a b k l ha hb =>
    have hk := other ha (hsrc a List.mem_cons_self)
    have hl := other hb (hsrc b (List.mem_cons_of_mem _ List.mem_cons_self))
    rw [← debugEmit_writeReg_other hk, ← writeReg_comm hk, ← readReg_writeReg_other r k v s hk,
      ← readReg_writeReg_other r l v s hl]
    exact .mul a b k l ha hb

/-- A destination that a handler does not read can hold any value: LDI overwrites it (R160). -/
theorem Handled.writeReg_overwritten {s u : State} {i : Instr} {r : RegIndex} (h : Handled s i u) (v : Nat)
    (hsrc : ∀ a ∈ i.sourceOperands, a.toNat ≠ r.val) (hdst : ∃ a ∈ i.destinationOperands, a.toNat = r.val) :
    Handled (s.writeReg r v) i u := by
  obtain ⟨a, ha, har⟩ := hdst
  have notRead (hs : a ∈ i.sourceOperands) : False := hsrc a hs har
  cases h with
  | hlt => simp [Instr.destinationOperands] at ha
  | add a k hk => exact (notRead ha).elim
  | prn a k hk => simp [Instr.destinationOperands] at ha
  | call a k hk => simp [Instr.destinationOperands] at ha
  | ldi c b k hk =>
    obtain rfl : a = c := List.mem_singleton.mp ha
    obtain rfl : k = r := Fin.ext (hk.symm.trans har)
    rw [← writeReg_writeReg_same k v (immediateOperand b) s]
    exact .ldi a b k hk
  | mul c b k l hk hl => exact (notRead (List.mem_cons.mpr (.inl (List.mem_singleton.mp ha)))).elim

/-- With a register operand above 7, no destination names a register that is not read too: LDI's destination is its
only register operand, and ADD and MUL read theirs. -/
theorem not_destination_of_badOperand {i : Instr} {a : Byte} {r : RegIndex} (ha : a ∈ i.registerOperands)
    (hbad : 7 < a.toNat) (hsrc : ∀ a ∈ i.sourceOperands, a.toNat ≠ r.val) :
    ¬ ∃ a ∈ i.destinationOperands, a.toNat = r.val := by
  rintro ⟨c, hc, hcr⟩
  have notRead (hs : c ∈ i.sourceOperands) : False := hsrc c hs hcr
  cases i with
  | hlt => cases hc
  | add b => exact notRead hc
  | prn b => cases hc
  | call b => cases hc
  | ldi b imm =>
    obtain rfl : a = b := List.mem_singleton.mp ha
    obtain rfl : c = a := List.mem_singleton.mp hc
    omega
  | mul b b' => exact notRead (List.mem_cons.mpr (.inl (List.mem_singleton.mp hc)))

/-- A register that an instruction does not read can hold any value (R24): the instruction overwrites it if it is
the destination and leaves it otherwise. -/
theorem exec_writeReg_of_not_read {i : Instr} {s t : State} {r : RegIndex} (v : Nat)
    (hsrc : ∀ a ∈ i.sourceOperands, a.toNat ≠ r.val) (h : exec i s = .next t) :
    exec i (s.writeReg r v) =
      .next (if ∃ a ∈ i.destinationOperands, a.toNat = r.val then t else t.writeReg r v) := by
  rcases exec_cases i s with ⟨u, hu, hexec⟩ | ⟨a, ha, hbad, -⟩
  · obtain rfl : t = u.advance (opcodeByte i.mnemonic) := by rw [h] at hexec; cases hexec; rfl
    split
    · next hdst => exact exec_of_handled (hu.writeReg_overwritten v hsrc hdst)
    · next hdst =>
      exact exec_of_handled (hu.writeReg_kept v hsrc fun a ha har => hdst ⟨a, ha, har⟩)
  · obtain ⟨e, he⟩ := exec_of_badOperand ha hbad
    obtain rfl : t = s.raise e := by rw [he] at h; cases h; rfl
    rw [if_neg (not_destination_of_badOperand ha hbad hsrc)]
    exact he _

/-- Settles O13: only a handler writes a register, its destination; a register that is not read does not matter; and
the host's events leave the registers alone. -/
theorem registersReadAndWritten : Obligations.RegistersReadAndWritten := by
  refine ⟨fun s t r hstep hne => ?_, fun i s t r v hsrc h => ?_, fun ev s ht hr => ?_⟩
  · cases stepped_of_step hstep with
    | idle _ => exact absurd rfl hne
    | raised _ e _ => exact absurd rfl hne
    | completed hg hb i u hd hu =>
      have hdst : ∃ a ∈ i.destinationOperands, a.toNat = r.val := by
        by_contra hno
        exact hne (hu.readReg_eq fun a ha har => hno ⟨a, ha, har⟩)
      obtain ⟨a, ha, har⟩ := hdst
      obtain ⟨hir, rfl⟩ := decode_destination hd ha
      exact ⟨⟨hg, hstep, completed_fault_none hg hu _⟩, hir, har⟩
  · simpa only [writeReg_toNat] using exec_writeReg_of_not_read v.toNat hsrc h
  · obtain ⟨⟨hx, -, -, -⟩, -, -⟩ := hostEventsLeaveTheEngineAlone ev s ht hr
    exact hx.symm

/-! ### The invariant -/

/-- A created state meets the invariant (R38). -/
theorem inv_create (p : Params) {m : Memory} (hw : m.wf) (hm : m.within p.memSize) : Inv (State.create p m) where
  pc_le := Nat.zero_le _
  halt_or_fault := fun _ => rfl
  fault_ok := rfl
  obs_ok := by simp [State.create]
  mem_wf := hw
  mem_within := hm

/-- Settles O49: the reset state is the created state with nothing listed. -/
theorem reachableStateLawsHoldAtReset : Obligations.ReachableStateLawsHoldAtReset :=
  ⟨fun p _ hw hm => inv_create p hw hm, inv_create _ Memory.wf_nil (by simp)⟩

/-- Raising an error that R191 to R193 allow keeps the invariant. -/
theorem Inv.raise {s : State} {e : Fault} (h : Inv s) (hh : s.halt = false)
    (hok : (s.raise e).faultRecordOk = true) : Inv (s.raise e) where
  pc_le := h.pc_le
  halt_or_fault := by simp [hh]
  fault_ok := hok
  obs_ok := h.obs_ok
  mem_wf := h.mem_wf
  mem_within := h.mem_within

/-- A handler that ran to its end keeps the invariant, with the PC advanced: the three fetched bytes are inside
memory, and an instruction is at most three bytes long. -/
theorem Inv.completed {s u : State} {i : Instr} (h : Inv s) (hf : s.fault = none)
    (hb : s.pc + 2 < s.params.memSize) (hu : Handled s i u) : Inv (u.advance (opcodeByte i.mnemonic)) where
  pc_le := by
    have := decodeLength_opcodeByte_le i.mnemonic
    rw [advance_pc, advance_params, hu.pc_eq, hu.params_eq]
    omega
  halt_or_fault := fun _ => by rw [advance_fault, hu.fault_eq, hf]
  fault_ok := faultRecordOk_of_fault_none (by rw [advance_fault, hu.fault_eq, hf])
  obs_ok := by
    intro r hr
    have hp : (u.advance (opcodeByte i.mnemonic)).params = s.params := hu.params_eq
    rw [advance_obs] at hr
    rw [recordOk_congr hp]
    rcases hu.obs_cases with ho | ⟨r', hr', ho⟩
    · exact h.obs_ok r (ho ▸ hr)
    · rw [ho, List.mem_append, List.mem_singleton] at hr
      rcases hr with hr | rfl
      · exact h.obs_ok r hr
      · exact hr'
  mem_wf := by rw [advance_mem, hu.mem_eq]; exact h.mem_wf
  mem_within := by rw [advance_mem, advance_params, hu.mem_eq, hu.params_eq]; exact h.mem_within

/-- Settles O50: an idle step, a raised error and a completed instruction each keep the invariant. -/
theorem everyStepKeepsReachableStateLaws : Obligations.EveryStepKeepsReachableStateLaws := by
  intro s t h hstep
  cases stepped_of_step hstep with
  | idle _ => exact h
  | raised hg e hok => exact h.raise ((gateOpen_iff s).mp hg).2.2 (hok h.pc_le)
  | completed hg hb i u hd hu => exact h.completed ((gateOpen_iff s).mp hg).2.1 hb hu

/-- The invariant does not speak of the clock, and of the memory only that it is canonical and within `MEM_SIZE`. -/
theorem Inv.with_mem_clock {s : State} (h : Inv s) {m : Memory} (hw : m.wf) (hm : m.within s.params.memSize)
    (c : Bool) : Inv { s with mem := m, clockRunning := c } where
  pc_le := h.pc_le
  halt_or_fault := h.halt_or_fault
  fault_ok := h.fault_ok
  obs_ok := h.obs_ok
  mem_wf := hw
  mem_within := hm

/-- Every host event keeps the invariant. -/
theorem Inv.afterEvent {s : State} (h : Inv s) (ev : HostEvent) : Inv (afterEvent ev s) := by
  cases ev with
  | poke addr v =>
    rcases afterEvent_poke_cases s addr v with ⟨-, ha, he⟩ | he <;> rw [he]
    · exact h.with_mem_clock (Memory.wf_set h.mem_wf _ _) (Memory.within_set h.mem_within ha _) _
    · exact h
  | start => exact h.with_mem_clock h.mem_wf h.mem_within true
  | stop => exact h.with_mem_clock h.mem_wf h.mem_within false
  | tick =>
    obtain ⟨t, hstep, -⟩ := exists_stepped s
    rw [afterEvent_tick hstep]
    exact everyStepKeepsReachableStateLaws s t h hstep
  | reset => exact inv_create s.params h.mem_wf h.mem_within

/-- Settles O51, by induction on the list of events. -/
theorem hostEventsKeepReachableStateLaws : Obligations.HostEventsKeepReachableStateLaws := by
  intro es
  induction es with
  | nil => exact fun _ h => h
  | cons ev es ih => exact fun s h => ih _ (h.afterEvent ev)

end Sys2Proof.Machine

/-! The statements about memory: a step writes none and reads three bytes of it, a `poke` writes one byte or nothing,
and the memories of the model are the memories of the spec, each written down in one way. -/

namespace Sys2Proof.Machine

/-! ### A step writes no memory -/

/-- `MemRead` depends on the byte at its address and on `MEM_SIZE` only (R51, R53). -/
theorem memRead_congr {s t : State} {addr : Nat} (hm : t.mem.get addr = s.mem.get addr) (hp : t.params = s.params) :
    t.memRead addr = s.memRead addr := by
  simp only [State.memRead, hm, hp]

theorem Stepped.mem_eq {s t : State} (h : Stepped s t) : t.mem = s.mem := by
  cases h with
  | idle _ => rfl
  | raised _ e _ => rfl
  | completed _ _ i u _ hu => exact hu.mem_eq

theorem Stepped.params_eq {s t : State} (h : Stepped s t) : t.params = s.params := by
  cases h with
  | idle _ => rfl
  | raised _ e _ => rfl
  | completed _ _ i u _ hu => exact hu.params_eq

/-- Settles O12: an idle step, a raised error and a completed instruction each keep memory and parameters. -/
theorem stepLeavesMemoryUnchanged : Obligations.StepLeavesMemoryUnchanged := by
  intro s t hstep
  have hm := (stepped_of_step hstep).mem_eq
  have hp := (stepped_of_step hstep).params_eq
  exact ⟨hm, hp, fun addr => memRead_congr (by rw [hm]) hp⟩

/-! ### A step reads three bytes of memory -/

theorem debugEmit_with_mem (m : Memory) (tag : Mnemonic) (k : RegIndex) (s : State) :
    ({ s with mem := m } : State).debugEmit tag k = { s.debugEmit tag k with mem := m } := by
  simp only [debugEmit_eq]
  rfl

/-- A handler reads no memory (R114): with another memory it has the same effect. -/
theorem Handled.with_mem {s u : State} {i : Instr} (h : Handled s i u) (m : Memory) :
    Handled { s with mem := m } i { u with mem := m } := by
  cases h with
  | hlt => exact .hlt
  | add a k ha => rw [← debugEmit_with_mem]; exact .add a k ha
  | prn a k ha => exact .prn a k ha
  | call a k ha => exact .call a k ha
  | ldi a b k ha => rw [← debugEmit_with_mem]; exact .ldi a b k ha
  | mul a b k l ha hb => rw [← debugEmit_with_mem]; exact .mul a b k l ha hb

/-- A meaning reads no memory: memory is read by the fetch only (R57). -/
theorem exec_with_mem {i : Instr} {s t : State} (m : Memory) (h : exec i s = .next t) :
    exec i { s with mem := m } = .next { t with mem := m } := by
  rcases exec_cases i s with ⟨u, hu, hexec⟩ | ⟨a, ha, hbad, -⟩
  · cases h.symm.trans hexec
    exact exec_of_handled (hu.with_mem m)
  · obtain ⟨e, he⟩ := exec_of_badOperand ha hbad
    cases h.symm.trans (he s)
    exact he _

/-- The fetch depends on the bytes at `pc`, `pc+1` and `pc+2` only (R57). -/
theorem fetch_with_mem {s : State} {m : Memory} (h : ∀ k ≤ 2, m.get (s.pc + k) = s.mem.get (s.pc + k)) :
    ({ s with mem := m } : State).fetch = s.fetch := by
  have read (k : Nat) (hk : k ≤ 2) : ({ s with mem := m } : State).memRead (s.pc + k) = s.memRead (s.pc + k) :=
    memRead_congr (h k hk) rfl
  have read₀ : ({ s with mem := m } : State).memRead s.pc = s.memRead s.pc := read 0 (by omega)
  simp only [State.fetch, read₀, read 1 (by omega), read 2 (by omega)]

/-- Settles O23: the fetch gives the same descriptor or the same error, and what follows reads no memory. -/
theorem onlyThreeBytesMatter : Obligations.OnlyThreeBytesMatter := by
  intro s t m hm hstep
  have hfetch := fetch_with_mem hm
  rcases step_cases s with ⟨hg, h⟩ | ⟨hg, -, addr, hf, h⟩ | ⟨hg, hb, hd, h⟩ | ⟨hg, hb, i, hd, h, -⟩
  · cases hstep.symm.trans h
    exact step_of_gate_closed hg
  · cases hstep.symm.trans h
    exact step_of_fetch_error hg (hfetch.trans hf)
  · cases hstep.symm.trans h
    exact step_of_unknown (s := { s with mem := m }) hg (hfetch.trans (fetch_ok hb)) hd
  · calc step { s with mem := m }
      _ = exec i { s with mem := m } := step_of_decoded hg (hfetch.trans (fetch_ok hb)) hd
      _ = .next { t with mem := m } := exec_with_mem m (h.symm.trans hstep)

/-! ### A `poke` writes one byte, or nothing -/

/-- Settles O43: a `poke` is a write to memory, which is read back at its address and nowhere else. -/
theorem pokeWritesOneByte : Obligations.PokeWritesOneByte := by
  intro s addr value hc ha hw
  refine ⟨_, poke_ok hc ha value, ?_, fun a hne => ?_, ⟨rfl, rfl, rfl, rfl⟩, rfl, rfl, rfl, Memory.wf_set hw _ _⟩
  · have hbyte : BitVec.ofNat 8 value = BitVec.ofNat 8 (value % 256) := BitVec.eq_of_toNat_eq (by simp)
    rw [memRead_ok, Memory.get_set hw, if_pos rfl, hbyte]
    exact ha
  · exact memRead_congr (by rw [Memory.get_set hw, if_neg hne.symm]) rfl

/-- A refused event leaves the state as it was (R66). -/
theorem afterEvent_of_refused {ev : HostEvent} {s : State} {r : Refusal} (h : hostEvent ev s = .refused r) :
    afterEvent ev s = s := by
  simp only [afterEvent, h]

/-- Settles O44: both are refusals, and a refused event changes nothing. -/
theorem pokeRefusedChangesNothing : Obligations.PokeRefusedChangesNothing := by
  intro s addr value
  refine ⟨fun hc => ?_, fun hc ha => ?_⟩
  · have h : hostEvent (.poke addr value) s = _ := poke_running hc addr value
    exact ⟨h, afterEvent_of_refused h⟩
  · have h : hostEvent (.poke addr value) s = _ := poke_outOfRange hc ha value
    exact ⟨h, afterEvent_of_refused h⟩

/-! ### The memories of the model -/

/-- The memory that reads as `f` on `0 .. n-1`, stored byte by byte. -/
def Memory.ofFun (f : Nat → Byte) : Nat → Memory
  | 0 => []
  | n + 1 => Memory.set (Memory.ofFun f n) n (f n)

theorem Memory.wf_ofFun (f : Nat → Byte) (n : Nat) : (Memory.ofFun f n).wf := by
  induction n with
  | zero => exact Memory.wf_nil
  | succ n ih => exact Memory.wf_set ih n (f n)

theorem Memory.within_ofFun (f : Nat → Byte) (n : Nat) : (Memory.ofFun f n).within n := by
  induction n with
  | zero => exact fun _ hc => absurd hc List.not_mem_nil
  | succ n ih => exact Memory.within_set (fun c hc => (ih c hc).trans n.lt_succ_self) n.lt_succ_self (f n)

theorem Memory.get_ofFun (f : Nat → Byte) {n a : Nat} (ha : a < n) : (Memory.ofFun f n).get a = f a := by
  induction n with
  | zero => omega
  | succ n ih =>
    rw [Memory.ofFun, Memory.get_set (Memory.wf_ofFun f n)]
    split
    · next hna => rw [hna]
    · next hna => exact ih (by omega)

/-- Settles O45, by storing the function's bytes one after another. -/
theorem everyInitialMemoryIsRepresentable : Obligations.EveryInitialMemoryIsRepresentable :=
  fun n f => ⟨Memory.ofFun f n, Memory.wf_ofFun f n, Memory.within_ofFun f n, fun _ => Memory.get_ofFun f⟩

/-- The cells of a canonical memory are the addresses that do not read as an unlisted one, each with its byte. -/
theorem Memory.mem_iff_get {m : Memory} (h : m.wf) (c : Host.Cell) :
    c ∈ m ↔ m.get c.1 = c.2 ∧ c.2 ≠ Memory.unlisted := by
  induction m with
  | nil => simpa [Memory.get] using fun h => h.symm
  | cons d m ih =>
    obtain ⟨a, w⟩ := d
    obtain ⟨k, v⟩ := c
    have hw : w ≠ Memory.unlisted := h.2 (a, w) List.mem_cons_self
    by_cases hak : a = k
    · subst hak
      have hnot : (a, v) ∉ m := fun hc => lt_irrefl a (Memory.head_lt h (a, v) hc)
      have hv : w = v → v ≠ Memory.unlisted := fun hwv => hwv ▸ hw
      simpa [Memory.get, hnot, eq_comm (a := v)] using hv
    · simpa [Memory.get, hak, Ne.symm hak] using ih (Memory.wf_tail h)

/-- Settles O46: memories that read the same list the same cells, and the canonical form fixes their order. -/
theorem equalMemoriesAreEqualData : Obligations.EqualMemoriesAreEqualData := by
  intro m₁ m₂ h₁ h₂ hget
  have nodup {m : Memory} (h : m.wf) : m.Nodup := h.1.imp fun hlt heq => absurd (heq ▸ hlt) (lt_irrefl _)
  have hcells (c : Host.Cell) : c ∈ m₁ ↔ c ∈ m₂ := by
    rw [Memory.mem_iff_get h₁, Memory.mem_iff_get h₂, hget]
  have hperm : m₁.Perm m₂ := (List.perm_ext_iff_of_nodup (nodup h₁) (nodup h₂)).mpr hcells
  exact hperm.eq_of_pairwise (fun _ _ _ _ hlt hgt => absurd hlt (lt_asymm hgt)) h₁.1 h₂.1

end Sys2Proof.Machine

/-! The statements about the encoding: a descriptor decodes to an instruction exactly when it begins with the bytes of
that instruction, and the opcodes of the map are the bytes that decode (30_encoding.md). -/

namespace Sys2Proof

/-- An instruction has at least its opcode byte and at most the three bytes a cycle fetches (R85, R92). -/
theorem encode_length_bounds (i : Instr) : 1 ≤ (encode i).length ∧ (encode i).length ≤ 3 := by
  cases i <;> simp [encode]

/-- A descriptor decodes to an instruction exactly when it begins with the bytes of that instruction (R85, R87, R92). -/
theorem decode_eq_ok_iff_encode_prefix {ir a b : Byte} {i : Instr} :
    decode ⟨ir, a, b⟩ = .ok i ↔ encode i <+: [ir, a, b] := by
  constructor
  · intro h
    obtain ⟨hir, rfl | rfl | rfl | rfl | rfl | rfl⟩ := decode_ok_cases h <;>
      simpa [encode, Instr.mnemonic] using hir.symm
  · intro h
    cases i <;> simp only [encode, List.cons_prefix_cons] at h <;> obtain ⟨rfl, h⟩ := h
    case hlt => simp [decode]
    all_goals simpa [decode, eq_comm] using h

/-- Settles O1: the three bytes fetched begin with the bytes of the instruction, which are no more than three. -/
theorem decodeEncodeRoundTrip : Obligations.DecodeEncodeRoundTrip := by
  intro i rest hrest
  obtain ⟨hone, hthree⟩ := encode_length_bounds i
  have hpre : encode i <+: encode i ++ rest := List.prefix_append _ _
  have hlen : 3 ≤ (encode i ++ rest).length := by rw [List.length_append]; omega
  match encode i ++ rest, hpre, hlen with
  | ir :: a :: b :: tail, hpre, _ =>
    have hfetched : [ir, a, b] <+: ir :: a :: b :: tail := List.prefix_append [ir, a, b] tail
    exact decode_eq_ok_iff_encode_prefix.mpr (List.prefix_of_prefix_length_le hpre hfetched hthree)

/-- Settles O2: it is one direction of the characterisation of decoding by the encoded bytes. -/
theorem decodedDescriptorReencodes : Obligations.DecodedDescriptorReencodes :=
  fun _ _ h => decode_eq_ok_iff_encode_prefix.mp h

/-- The six bytes that select a handler are the opcodes of the rows of the map (R86, R87). -/
theorem mem_opcodes_iff (o : Byte) :
    o ∈ ([1, 24, 67, 72, 153, 170] : List Byte) ↔ ∃ m, o = opcodeByte m := by
  have hrows : ([1, 24, 67, 72, 153, 170] : List Byte) = opcodeRows.map opcodeByte := rfl
  have hall (m : Mnemonic) : m ∈ opcodeRows := by cases m <;> decide
  simp only [hrows, List.mem_map, hall, true_and, eq_comm]

/-- Settles O4: an accepted opcode is a row's, and a rejected one is no row's and rejected by its own name. -/
theorem dispatchOnWholeOpcodeByte : Obligations.DispatchOnWholeOpcodeByte := by
  intro o a b
  rw [mem_opcodes_iff]
  cases hd : decode ⟨o, a, b⟩ with
  | ok i => exact ⟨fun _ => ⟨i, rfl⟩, fun hno => absurd ⟨i.mnemonic, (decode_ok_cases hd).1⟩ hno⟩
  | error e =>
    obtain ⟨hnone, rfl⟩ := decode_error_cases hd
    exact ⟨fun ⟨m, hm⟩ => absurd hm ((dispatch_eq_none_iff o).mp hnone m), fun _ => rfl⟩

/-- Settles O3: shifting right by six is division by 64, and a byte is below 256 (R82). -/
theorem lengthFormulaForAllOpcodes : Obligations.LengthFormulaForAllOpcodes := by
  intro o
  have hlen : decodeLength o = o.toNat / 64 + 1 := by
    rw [decodeLength, encodedOperandCount, Nat.shiftRight_eq_div_pow]
  have hlt : o.toNat < 256 := o.isLt
  refine ⟨rfl, rfl, ?_⟩
  omega

/-- Settles O5, by running the decoder on each word. -/
theorem specWordsDecode : Obligations.SpecWordsDecode := by
  unfold Obligations.SpecWordsDecode
  decide

end Sys2Proof

/-! The statements about the cycle: the gate, the step as the meaning of the fetched instruction and as the spec's flat
pseudocode, what an error changes, and how every run ends (40_cycle.md). -/

namespace Sys2Proof.Machine

/-! ### HALTED and FAULTED -/

/-- Outside RUNNING no cycle runs (R30, R110). -/
theorem step_of_not_running {s : State} (h : s.status ≠ .running) : step s = .next s := by
  obtain ⟨-, -, -, hstep⟩ := statusFromHaltAndFault s
  exact hstep h

theorem sameEngine_refl (s : State) : SameEngine s s := ⟨rfl, rfl, rfl, rfl⟩

theorem sameEngine_trans {s t u : State} (hst : SameEngine s t) (htu : SameEngine t u) : SameEngine s u := by
  obtain ⟨hx, hpc, hhalt, hfault⟩ := hst
  obtain ⟨kx, kpc, khalt, kfault⟩ := htu
  exact ⟨hx.trans kx, hpc.trans kpc, hhalt.trans khalt, hfault.trans kfault⟩

/-- The status is a function of what the engine owns (R30). -/
theorem status_eq_of_sameEngine {s t : State} (h : SameEngine s t) : t.status = s.status := by
  obtain ⟨-, -, hhalt, hfault⟩ := h
  simp only [State.status, hhalt, hfault]

/-- In HALTED or FAULTED no event but reset touches the engine or the records: a tick runs no cycle, and the other
events never do. -/
theorem afterEvent_of_not_running {ev : HostEvent} {s : State} (hr : ev ≠ .reset) (hs : s.status ≠ .running) :
    SameEngine s (afterEvent ev s) ∧ (afterEvent ev s).obs = s.obs := by
  by_cases ht : ev = .tick
  · subst ht
    rw [afterEvent_tick (step_of_not_running hs)]
    exact ⟨sameEngine_refl s, rfl⟩
  · obtain ⟨hengine, hobs, -⟩ := hostEventsLeaveTheEngineAlone ev s ht hr
    exact ⟨hengine, hobs⟩

/-- Settles O39, by induction on the list of events: each keeps the engine, and with it the status. -/
theorem terminalStatusIsForever : Obligations.TerminalStatusIsForever := by
  intro es
  induction es with
  | nil => exact fun s _ _ => ⟨sameEngine_refl s, rfl, rfl⟩
  | cons ev es ih =>
    intro s hr hs
    obtain ⟨hev, hes⟩ := not_or.mp (List.mem_cons.not.mp hr)
    obtain ⟨hengine, hobs⟩ := afterEvent_of_not_running (Ne.symm hev) hs
    have hstatus := status_eq_of_sameEngine hengine
    obtain ⟨hengine', hobs', hstatus'⟩ := ih (afterEvent ev s) hes (hstatus ▸ hs)
    exact ⟨sameEngine_trans hengine hengine', hobs'.trans hobs, hstatus'.trans hstatus⟩

/-! ### The gate, and the decoded instruction -/

/-- A step with the gate open is one cycle (R110). -/
theorem step_of_gate_open {s : State} (h : s.gateOpen = true) : step s = s.cycle := if_pos h

/-- Settles O7: the three conditions are the gate's. -/
theorem tickRunsCycleOnlyThroughGate : Obligations.TickRunsCycleOnlyThroughGate := by
  intro s
  refine ⟨fun hc hh hf => step_of_gate_open ((gateOpen_iff s).mpr ⟨hc, hf, hh⟩), fun h => ?_⟩
  refine step_of_gate_closed (Bool.eq_false_iff.mpr fun hg => ?_)
  obtain ⟨hc, hf, hh⟩ := (gateOpen_iff s).mp hg
  simp [hc, hf, hh] at h

/-- Settles O6: the fetch gives the three bytes. -/
theorem stepRunsDecodedInstruction : Obligations.StepRunsDecodedInstruction :=
  fun _ _ hg hb hd => step_of_decoded hg (fetch_ok hb) hd

/-- The cycle after placing a descriptor at `pc` fetches that descriptor. -/
theorem fetch_placeAtPc {s : State} (hw : s.mem.wf) (d : Descriptor) : (s.placeAtPc d).fetch = .ok d := by
  have hb : (s.placeAtPc d).pc + 2 < (s.placeAtPc d).params.memSize := by
    simp only [State.placeAtPc]
    omega
  have hw₁ := Memory.wf_set hw s.pc d.ir
  have hw₂ := Memory.wf_set hw₁ (s.pc + 1) d.a
  rw [fetch_ok hb]
  simp [State.placeAtPc, Memory.get_set hw₂, Memory.get_set hw₁, Memory.get_set hw]

theorem gateOpen_placeAtPc (s : State) (d : Descriptor) : (s.placeAtPc d).gateOpen = true := rfl

theorem decodeTableWord_eq_some_iff {nbits w : Nat} {i : Instr} :
    decodeTableWord nbits w = some i ↔ decode (tableDescriptor nbits w) = .ok i := by
  unfold decodeTableWord
  cases decode (tableDescriptor nbits w) <;> simp

/-- Settles O52: the next cycle fetches the word's descriptor, through an open gate. -/
theorem placedWordIsRunNext : Obligations.PlacedWordIsRunNext :=
  fun _ _ _ _ hw hi =>
    step_of_decoded (gateOpen_placeAtPc _ _) (fetch_placeAtPc hw _) (decodeTableWord_eq_some_iff.mp hi)

/-- Settles O18: whatever a step does, it answers a next state. -/
theorem everyStepAnswersANextState : Obligations.EveryStepAnswersANextState := by
  intro s
  obtain ⟨t, hstep, -⟩ := exists_stepped s
  exact ⟨t, hstep⟩

/-- Settles O10: a faulting cycle is the entry of its error, and the gate was open. -/
theorem faultingCycleChangesOnlyFaultAndClock : Obligations.FaultingCycleChangesOnlyFaultAndClock := by
  intro s t e h
  obtain rfl := faultingCycle_eq_raise h
  obtain ⟨hg, -, -⟩ := h
  obtain ⟨-, -, hhalt⟩ := (gateOpen_iff s).mp hg
  exact ⟨rfl, rfl, hhalt, rfl, rfl, rfl, rfl, rfl⟩

/-! ### The spec's pseudocode -/

/-- `fault <- E(info)` of the pseudocode is the error entry of R195. -/
theorem Pseudo.fail_eq_raise (s : State) (e : Fault) : Pseudo.fail s e = s.raise e := rfl

/-- The end of a cycle whose handler has one register operand, as the pseudocode writes it: a test of the index. -/
theorem finish_withRegister (ir a : Byte) (k : RegIndex → State) (s : State) :
    s.finish ir (withRegister a k) =
      if h : a.toNat < 8 then (k ⟨a.toNat, h⟩).advance ir else Pseudo.fail s (.registerIndexOutOfRange a) := by
  split
  · next h => rw [withRegister_ok h]; rfl
  · next h => rw [withRegister_error (by omega)]; rfl

/-- The same with two register operands, `A` tested before `B` (R144). -/
theorem finish_withRegisters (ir a b : Byte) (k : RegIndex → RegIndex → State) (s : State) :
    s.finish ir (withRegisters a b k) =
      if h : a.toNat < 8 then
        if h' : b.toNat < 8 then (k ⟨a.toNat, h⟩ ⟨b.toNat, h'⟩).advance ir
        else Pseudo.fail s (.registerIndexOutOfRange b)
      else Pseudo.fail s (.registerIndexOutOfRange a) := by
  split
  · next h => rw [← finish_withRegister, withRegisters, registerOperand_ok h]
  · next h => rw [withRegisters_error_first (by omega)]; rfl

/-- The PC advance by the encoded length, as the pseudocode writes it (R115). -/
theorem advance_eq (ir : Byte) (s : State) : s.advance ir = { s with pc := s.pc + ir.toNat / 64 + 1 } := by
  rw [State.advance, decodeLength, encodedOperandCount, Nat.shiftRight_eq_div_pow, ← Nat.add_assoc]

/-- A report and the PC advance, as one update (R170, R171). -/
theorem advance_emit (ir : Byte) (tag : Mnemonic) (i : RegIndex) (v : Byte) (s : State) :
    (s.emit tag i v).advance ir = { s with pc := s.pc + ir.toNat / 64 + 1, obs := s.obs ++ [⟨tag, i, v⟩] } :=
  advance_eq ir _

/-- A register write, its debug record and the PC advance, as one update (R173). -/
theorem advance_debugEmit_writeReg (ir : Byte) (tag : Mnemonic) (i : RegIndex) (v : Byte) (s : State) :
    ((s.writeReg i v.toNat).debugEmit tag i).advance ir =
      { s with
        x := s.x.set i v
        pc := s.pc + ir.toNat / 64 + 1
        obs := s.obs ++ Pseudo.debugRecord s ⟨tag, i, v⟩ } := by
  rw [debugEmit_eq, readReg_writeReg_same, writeReg_toNat, BitVec.ofNat_toNat, BitVec.setWidth_eq, advance_eq]
  rfl

/-- ADD's and MUL's results are the pseudocode's, which reduces modulo 256 before storing in a byte (R145, R144). -/
theorem ofNat_mod_256 (n : Nat) : BitVec.ofNat 8 (n % 256) = BitVec.ofNat 8 n :=
  BitVec.eq_of_toNat_eq (by simp)

/-- On the bytes of an instruction the pseudocode ends as the cycle ends after that instruction's handler
(R111, R113): one case per row of R87. -/
theorem Pseudo.dispatch_of_decoded {d : Descriptor} {i : Instr} (h : decode d = .ok i) (s : State) :
    Pseudo.dispatch s d.ir d.a d.b = s.finish (opcodeByte i.mnemonic) (handler i s) := by
  obtain ⟨hir, hi⟩ := decode_ok_cases h
  rw [hir]
  rcases hi with rfl | rfl | rfl | rfl | rfl | rfl
  · rfl
  · simp only [handler, handleAdd, finish_withRegister, advance_debugEmit_writeReg]
    simp [Pseudo.dispatch, opcodeByte, Instr.mnemonic, dbl8, ofNat_mod_256, State.readReg]
  · simp only [handler, reportRegister, finish_withRegister, advance_emit]
    simp [Pseudo.dispatch, opcodeByte, Instr.mnemonic, State.readReg]
  · simp only [handler, reportRegister, finish_withRegister, advance_emit]
    simp [Pseudo.dispatch, opcodeByte, Instr.mnemonic, State.readReg]
  · simp only [handler, handleLdi, immediateOperand, finish_withRegister, advance_debugEmit_writeReg]
    simp [Pseudo.dispatch, opcodeByte, Instr.mnemonic]
  · simp only [handler, handleMul, finish_withRegisters, advance_debugEmit_writeReg]
    simp [Pseudo.dispatch, opcodeByte, Instr.mnemonic, alu, ofNat_mod_256, State.readReg]

/-- On an opcode outside the map the pseudocode falls through its six tests (R89, R191). -/
theorem Pseudo.dispatch_of_unknown {ir : Byte} (h : Sys2Proof.dispatch ir = none) (A B : Byte) (s : State) :
    Pseudo.dispatch s ir A B = s.raise (.unknownOpcode ir) := by
  have hne : ir ∉ ([1, 24, 67, 72, 153, 170] : List Byte) := fun hmem => by
    obtain ⟨m, hm⟩ := (mem_opcodes_iff ir).mp hmem
    exact (dispatch_eq_none_iff ir).mp h m hm
  simp only [List.mem_cons, List.not_mem_nil, or_false, not_or] at hne
  simp only [Pseudo.dispatch, hne, if_false, Pseudo.fail_eq_raise]

/-- With three bytes to fetch, the pseudocode dispatches on them (R112). -/
theorem Pseudo.cycle_of_fetchable {s : State} (h : s.pc + 2 < s.params.memSize) :
    Pseudo.cycle s = Pseudo.dispatch s (s.mem.get s.pc) (s.mem.get (s.pc + 1)) (s.mem.get (s.pc + 2)) := by
  unfold Pseudo.cycle
  rw [if_neg (by omega), if_neg (by omega), if_neg (by omega)]

/-- Otherwise it raises the error of the first bad address, as the fetch does (R57). -/
theorem Pseudo.cycle_of_fetch_error {s : State} {e : Fault} (h : s.fetch = .error e) :
    Pseudo.cycle s = s.raise e := by
  unfold Pseudo.cycle
  rcases fetch_cases s with ⟨-, hf⟩ | ⟨hb, hf⟩ | ⟨hb, hf⟩ | ⟨hb, hf⟩ <;> cases h.symm.trans hf
  · rw [if_pos hb, Pseudo.fail_eq_raise]
  · rw [if_neg (by omega), if_pos (by omega), Pseudo.fail_eq_raise]
  · rw [if_neg (by omega), if_neg (by omega), if_pos (by omega), Pseudo.fail_eq_raise]

/-- The pseudocode's three conditions are the gate (R110). -/
theorem Pseudo.tick_of_gate_open {s : State} (h : s.gateOpen = true) : Pseudo.tick s = Pseudo.cycle s := by
  obtain ⟨hc, hf, hh⟩ := (gateOpen_iff s).mp h
  exact if_pos ⟨hc, hh, hf⟩

theorem Pseudo.tick_of_gate_closed {s : State} (h : s.gateOpen = false) : Pseudo.tick s = s :=
  if_neg fun ⟨hc, hh, hf⟩ => Bool.eq_false_iff.mp h ((gateOpen_iff s).mpr ⟨hc, hf, hh⟩)

/-- Settles O8: the pseudocode does what the step does, be it nothing, a fetch error, an unknown opcode or an
instruction. -/
theorem stepIsTheSpecsTick : Obligations.StepIsTheSpecsTick := by
  intro s
  rcases step_cases s with ⟨hg, h⟩ | ⟨hg, -, addr, hf, h⟩ | ⟨hg, hb, hd, h⟩ | ⟨hg, hb, i, hd, h, -⟩
  · rw [h, Pseudo.tick_of_gate_closed hg]
  · rw [h, Pseudo.tick_of_gate_open hg, Pseudo.cycle_of_fetch_error hf]
  · rw [h, Pseudo.tick_of_gate_open hg, Pseudo.cycle_of_fetchable hb, Pseudo.dispatch_of_unknown hd]
  · rw [h, Pseudo.tick_of_gate_open hg, Pseudo.cycle_of_fetchable hb, exec_eq_finish]
    exact congrArg _ (Pseudo.dispatch_of_decoded hd s).symm

/-! ### How a run ends -/

/-- No handler but HLT's touches the clock (R180). -/
theorem Handled.clockRunning_cases {s u : State} {i : Instr} (h : Handled s i u) :
    (i = .hlt ∧ u = s.raiseHalt) ∨ u.clockRunning = s.clockRunning := by
  cases h with
  | hlt => exact .inl ⟨rfl, rfl⟩
  | _ => exact .inr (by simp)

/-- Every run of `k` or more steps ends in one and the same state, HALTED or FAULTED (R120). -/
def EndsWithin (k : Nat) (s : State) : Prop :=
  ∃ t : State, (t.status = .halted ∨ t.status = .faulted) ∧ ∀ n, k ≤ n → core.run n s = .next t

theorem run_of_step_self {s : State} (h : step s = .next s) (n : Nat) : core.run n s = .next s := by
  induction n with
  | zero => rfl
  | succ n ih => exact (run_succ n h).trans ih

/-- A state that is not RUNNING is its own end. -/
theorem endsWithin_of_not_running {s : State} (h : s.status ≠ .running) (k : Nat) : EndsWithin k s := by
  refine ⟨s, ?_, fun n _ => run_of_step_self (step_of_not_running h) n⟩
  cases hs : s.status with
  | running => exact absurd hs h
  | halted => exact .inl rfl
  | faulted => exact .inr rfl

theorem EndsWithin.mono {k l : Nat} {s : State} (h : EndsWithin k s) (hkl : k ≤ l) : EndsWithin l s := by
  obtain ⟨t, ht, hrun⟩ := h
  exact ⟨t, ht, fun n hn => hrun n (hkl.trans hn)⟩

/-- A step takes one off what is left of the run. -/
theorem EndsWithin.of_step {k : Nat} {s t : State} (hstep : step s = .next t) (h : EndsWithin k t) :
    EndsWithin (k + 1) s := by
  obtain ⟨e, he, hrun⟩ := h
  refine ⟨e, he, fun n hn => ?_⟩
  obtain ⟨m, rfl⟩ : ∃ m, n = m + 1 := ⟨n - 1, by omega⟩
  exact (run_succ m hstep).trans (hrun m (by omega))

/-- A completed instruction moves `pc` on by at least 1, so that fewer start addresses are left (R82, R115). -/
theorem Handled.startAddresses_lt {s u : State} {i : Instr} (hu : Handled s i u) (hb : s.pc + 2 < s.params.memSize) :
    (u.advance (opcodeByte i.mnemonic)).params.memSize - 2 - (u.advance (opcodeByte i.mnemonic)).pc <
      s.params.memSize - 2 - s.pc := by
  have hlen : 1 ≤ decodeLength (opcodeByte i.mnemonic) := Nat.le_add_left 1 _
  rw [advance_params, advance_pc, hu.params_eq, hu.pc_eq]
  omega

/-- With the clock running, a run ends within one cycle per start address left and one more: a cycle ends it, or
leaves the clock running and fewer start addresses. -/
theorem endsWithin_of_clockRunning (s : State) (hc : s.clockRunning = true) :
    EndsWithin (s.params.memSize - 2 - s.pc + 1) s := by
  induction hn : s.params.memSize - 2 - s.pc using Nat.strong_induction_on generalizing s with
  | h n ih =>
    subst hn
    obtain ⟨t, hstep, ht⟩ := exists_stepped s
    cases ht with
    | idle hg => exact endsWithin_of_not_running (fun hs => by simp [State.gateOpen, hc, hs] at hg) _
    | raised hg e _ => exact (endsWithin_of_not_running (by simp [status_running_iff]) _).of_step hstep
    | completed hg hb i u _ hu =>
      rcases hu.clockRunning_cases with ⟨rfl, rfl⟩ | hclock
      · exact (endsWithin_of_not_running (by simp [status_running_iff]) _).of_step hstep
      · have hlt := hu.startAddresses_lt hb
        have hend : EndsWithin _ (u.advance (opcodeByte i.mnemonic)) := ih _ hlt _ (hclock.trans hc) rfl
        exact (hend.mono hlt).of_step hstep

/-- Settles O21: the bound is the number of start addresses left, and one more. -/
theorem everyRunEnds : Obligations.EveryRunEnds := by
  intro s hc
  obtain ⟨t, ht, hrun⟩ := endsWithin_of_clockRunning s hc
  exact ⟨_, t, le_rfl, ht, hrun⟩

end Sys2Proof.Machine

/-! The statements about arithmetic: the ALU's product and ADD's doubling are those of the ring of bytes, the exact
results of ADD and MUL, and the frame of the instructions that write a register (41_arith.md). -/

namespace Sys2Proof.Machine

/-! ### The product and the doubling -/

/-- The ALU's product is the product of bytes (R141). -/
theorem alu_mul_eq_mul (a b : Byte) : alu .mul a b = a * b := by
  rw [alu, BitVec.ofNat_mul, BitVec.ofNat_toNat, BitVec.ofNat_toNat, BitVec.setWidth_eq, BitVec.setWidth_eq]

/-- Doubling is multiplication by 2 in bytes (R146). -/
theorem dbl8_eq_two_mul (a : Byte) : dbl8 a = 2#8 * a := by
  rw [dbl8, BitVec.ofNat_mul, BitVec.ofNat_toNat, BitVec.setWidth_eq]

/-- Settles O35: a product reduced modulo `2^16` and then modulo 256 is reduced modulo 256. -/
theorem aluMultipliesModulo256 : Obligations.AluMultipliesModulo256 := by
  intro a b
  have hnat : (alu .mul a b).toNat = (a.toNat * b.toNat) % 256 := BitVec.toNat_ofNat _ 8
  refine ⟨hnat, BitVec.eq_of_toNat_eq ?_⟩
  have ha : a.toNat % 2 ^ 16 = a.toNat := Nat.mod_eq_of_lt (by omega)
  have hb : b.toNat % 2 ^ 16 = b.toNat := Nat.mod_eq_of_lt (by omega)
  rw [hnat, BitVec.extractLsb'_toNat, BitVec.toNat_mul, BitVec.toNat_setWidth, BitVec.toNat_setWidth, ha, hb]
  omega

/-- Settles O36: the doubling is a sum of two equal bytes, and a shift by one is a multiplication by 2. -/
theorem doublingIsAShift : Obligations.DoublingIsAShift := by
  intro a
  have hshift : dbl8 a = a <<< 1 := by
    rw [dbl8_eq_two_mul, BitVec.shiftLeft_eq_mul_twoPow, BitVec.mul_comm]
    rfl
  refine ⟨BitVec.toNat_ofNat _ 8, ?_, hshift, ?_⟩
  · rw [dbl8_eq_two_mul, BitVec.two_mul]
  · rw [hshift, BitVec.getLsbD_shiftLeft]
    rfl

/-- Settles O37: reading an integer as a byte respects products, and a byte's signed value reads as that byte. -/
theorem signednessDoesNotMatter : Obligations.SignednessDoesNotMatter := by
  intro a b
  constructor
  · rw [alu_mul_eq_mul, BitVec.ofInt_mul, BitVec.ofInt_toInt, BitVec.ofInt_toInt]
  · rw [dbl8_eq_two_mul, BitVec.ofInt_mul, BitVec.ofInt_toInt]
    rfl

/-! ### The results of ADD and MUL -/

/-- A meaning whose handler writes `v` to one register and may trace it: the exact next state (R114, R115, R173). -/
theorem exec_of_handled_writeReg {s : State} {i : Instr} {m : Mnemonic} {r : RegIndex} {v : Byte}
    (h : Handled s i ((s.writeReg r v.toNat).debugEmit m r)) (hm : i.mnemonic = m) :
    exec i s = .next { s with
      x := s.x.set r v
      pc := s.pc + decodeLength (opcodeByte m)
      obs := s.obs ++ debugRecords s.params m r v } := by
  rw [exec_of_handled h, hm, debugEmit_eq, readReg_writeReg_same, writeReg_toNat, BitVec.ofNat_toNat,
    BitVec.setWidth_eq]
  rfl

/-- Settles O26: the handler with a register doubles it, and without one answers its error. -/
theorem addDoublesRegister : Obligations.AddDoublesRegister := by
  refine ⟨fun a => rfl, fun a s h => ?_, fun a s ha => ?_⟩
  · intro v
    have hv : v = dbl8 (s.readReg ⟨a.toNat, h⟩) := ofNat_mod_256 _
    have hadd : Handled s (.add a) ((s.writeReg ⟨a.toNat, h⟩ v.toNat).debugEmit .add ⟨a.toNat, h⟩) :=
      hv ▸ .add a ⟨a.toNat, h⟩ rfl
    exact exec_of_handled_writeReg hadd rfl
  · exact firstBadRegisterOperandIsTheError (.add a) s a (by simp [Instr.registerOperands, ha])

/-- Settles O27: the handler with two registers multiplies them, and otherwise answers the error of the first operand
that names none. -/
theorem mulMultipliesRegisters : Obligations.MulMultipliesRegisters := by
  refine ⟨fun a b => rfl, fun a b s ha hb => ?_, fun a b s ha => ?_, fun a b s ha hb => ?_⟩
  · intro v
    have hv : v = alu .mul (s.readReg ⟨a.toNat, ha⟩) (s.readReg ⟨b.toNat, hb⟩) := ofNat_mod_256 _
    have hmul : Handled s (.mul a b) ((s.writeReg ⟨a.toNat, ha⟩ v.toNat).debugEmit .mul ⟨a.toNat, ha⟩) :=
      hv ▸ .mul a b ⟨a.toNat, ha⟩ ⟨b.toNat, hb⟩ rfl rfl
    exact exec_of_handled_writeReg hmul rfl
  · exact firstBadRegisterOperandIsTheError (.mul a b) s a (by simp [Instr.registerOperands, ha])
  · have hgood : ¬ 7 < a.toNat := by omega
    exact firstBadRegisterOperandIsTheError (.mul a b) s b (by simp [Instr.registerOperands, hgood, hb])

/-! ### The frame of ADD, LDI and MUL -/

/-- A well-formed instruction has no register operand above 7 (R239). -/
theorem registerOperand_le_of_wellFormed {i : Instr} {a : Byte} (h : i.wellFormed = true)
    (ha : a ∈ i.registerOperands) : a.toNat ≤ 7 :=
  of_decide_eq_true (List.all_eq_true.mp h a ha)

theorem debugEmit_of_not_traced {s : State} (h : s.params.debugTrace = false) (tag : Mnemonic) (r : RegIndex) :
    s.debugEmit tag r = s := by
  simp [State.debugEmit, h]

/-- Without `DEBUG_TRACE` a handler with a destination emits nothing (R173). -/
theorem Handled.obs_eq_of_not_traced {s u : State} {i : Instr} (hu : Handled s i u)
    (hdst : i.destinationOperands ≠ []) (h : s.params.debugTrace = false) : u.obs = s.obs := by
  have silent (tag : Mnemonic) (r : RegIndex) (v : Nat) : ((s.writeReg r v).debugEmit tag r).obs = s.obs := by
    rw [debugEmit_of_not_traced (s := s.writeReg r v) h, writeReg_obs]
  cases hu with
  | hlt => exact absurd rfl hdst
  | prn a r ha => exact absurd rfl hdst
  | call a r ha => exact absurd rfl hdst
  | add a r ha => exact silent _ _ _
  | ldi a b r ha => exact silent _ _ _
  | mul a b r l ha hb => exact silent _ _ _

/-- Settles O34: a handler other than HLT's leaves all this alone, and a raised error all but the error record and the
clock. -/
theorem registerWritingInstructionsFrame : Obligations.RegisterWritingInstructionsFrame := by
  intro i s t hdst hexec
  rcases exec_cases i s with ⟨u, hu, h⟩ | ⟨a, ha, hbad, h⟩ <;> cases hexec.symm.trans h
  · have hne : i ≠ .hlt := fun hi => hdst (hi ▸ rfl)
    have hhalt : u.halt = s.halt := hu.halt_cases.resolve_left fun ⟨hi, _⟩ => hne hi
    have hclock : u.clockRunning = s.clockRunning := hu.clockRunning_cases.resolve_left fun ⟨hi, _⟩ => hne hi
    exact ⟨fun r hr => hu.readReg_eq hr, hhalt, hu.params_eq,
      fun _ => memRead_congr (congrArg (Memory.get · _) hu.mem_eq) hu.params_eq,
      hu.obs_eq_of_not_traced hdst, fun _ => ⟨hu.fault_eq, hclock⟩⟩
  · exact ⟨fun _ _ => rfl, rfl, rfl, fun _ => rfl, fun _ => rfl,
      fun hw => absurd (registerOperand_le_of_wellFormed hw ha) (by omega)⟩

end Sys2Proof.Machine

/-! The statement about LDI: its handler writes the immediate as it stands, and the one operand checked is the
destination (42_ldi.md). -/

namespace Sys2Proof.Machine

/-- Settles O28: the handler with a register writes the immediate byte to it, and without one answers its error. -/
theorem ldiLoadsImmediate : Obligations.LdiLoadsImmediate := by
  refine ⟨fun a b => rfl, fun a b s h => ?_, fun a b s ha => ?_⟩
  · have hldi : Handled s (.ldi a b) ((s.writeReg ⟨a.toNat, h⟩ b.toNat).debugEmit .ldi ⟨a.toNat, h⟩) :=
      .ldi a b ⟨a.toNat, h⟩ rfl
    exact exec_of_handled_writeReg hldi rfl
  · exact firstBadRegisterOperandIsTheError (.ldi a b) s a (by simp [Instr.registerOperands, ha])

end Sys2Proof.Machine

/-! The statements about the observation channel: the results and the frame of the instructions that report a register,
R174's table of what a completed cycle emits, and that nothing else depends on the records or on `DEBUG_TRACE`
(43_observe.md). -/

namespace Sys2Proof.Machine

/-! ### The results of PRN and CALL -/

/-- A meaning whose handler reports one register: the exact next state (R114, R115, R170, R171). -/
theorem exec_of_handled_emit {s : State} {i : Instr} {m : Mnemonic} {r : RegIndex} {v : Byte}
    (h : Handled s i (s.emit m r v)) (hm : i.mnemonic = m) :
    exec i s = .next { s with
      pc := s.pc + decodeLength (opcodeByte m)
      obs := s.obs ++ [⟨m, r, v⟩] } := by
  rw [exec_of_handled h, hm]
  rfl

/-- Settles O29: the handler with a register emits its record, and without one answers its error. -/
theorem prnEmitsRegister : Obligations.PrnEmitsRegister := by
  refine ⟨fun a => rfl, fun a s h => ?_, fun a s ha => ?_⟩
  · exact exec_of_handled_emit (.prn (s := s) a ⟨a.toNat, h⟩ rfl) rfl
  · exact firstBadRegisterOperandIsTheError (.prn a) s a (by simp [Instr.registerOperands, ha])

/-- Settles O30: CALL's handler differs from PRN's in the tag of the record only. -/
theorem callOnlyReports : Obligations.CallOnlyReports := by
  refine ⟨fun a => rfl, fun a s h => ?_, fun a s ha => ?_⟩
  · exact exec_of_handled_emit (.call (s := s) a ⟨a.toNat, h⟩ rfl) rfl
  · exact firstBadRegisterOperandIsTheError (.call a) s a (by simp [Instr.registerOperands, ha])

/-! ### The frame of HLT, PRN and CALL -/

/-- A handler without a destination changes no register (R24). -/
theorem Handled.x_eq_of_no_destination {s u : State} {i : Instr} (hu : Handled s i u)
    (hdst : i.destinationOperands = []) : u.x = s.x :=
  Vector.ext fun k hk => hu.readReg_eq (r := ⟨k, hk⟩) (by simp [hdst])

/-- Settles O33: a handler without a destination leaves all this alone, and a raised error, which HLT has none of, all
but the error record and the clock. -/
theorem registerPreservingInstructionsFrame : Obligations.RegisterPreservingInstructionsFrame := by
  intro i s t hdst hexec
  rcases exec_cases i s with ⟨u, hu, h⟩ | ⟨a, ha, hbad, h⟩ <;> cases hexec.symm.trans h
  · refine ⟨hu.x_eq_of_no_destination hdst, hu.params_eq,
      fun _ => memRead_congr (congrArg (Memory.get · _) hu.mem_eq) hu.params_eq, fun hi => ?_, fun hne => ?_⟩
    · subst hi
      cases hu
      exact ⟨rfl, rfl⟩
    · have hhalt : u.halt = s.halt := hu.halt_cases.resolve_left fun ⟨hi, _⟩ => hne hi
      have hclock : u.clockRunning = s.clockRunning := hu.clockRunning_cases.resolve_left fun ⟨hi, _⟩ => hne hi
      exact ⟨hhalt, fun _ => ⟨hu.fault_eq, hclock⟩⟩
  · refine ⟨rfl, rfl, fun _ => rfl, fun hi => ?_, fun _ => ⟨rfl, fun hw => ?_⟩⟩
    · subst hi
      cases ha
    · exact absurd (registerOperand_le_of_wellFormed hw ha) (by omega)

/-! ### What a completed cycle emits -/

/-- The table of R174: what the instruction emits about register `r` on the way from `s` to `t`. -/
def tableRecords (s t : State) (r : RegIndex) : Instr → List Record
  | .hlt => []
  | .prn _ => [⟨.prn, r, s.readReg r⟩]
  | .call _ => [⟨.call, r, s.readReg r⟩]
  | .add _ => debugRecords s.params .add r (t.readReg r)
  | .ldi _ b => debugRecords s.params .ldi r b
  | .mul _ _ => debugRecords s.params .mul r (t.readReg r)

/-- After a register write the debug record holds the register's new value (R173). -/
theorem debugEmit_writeReg_obs (s : State) (m : Mnemonic) (r : RegIndex) (v : Nat) :
    ((s.writeReg r v).debugEmit m r).obs =
      s.obs ++ debugRecords s.params m r (((s.writeReg r v).debugEmit m r).readReg r) := by
  rw [debugEmit_obs, State.readReg, State.readReg, debugEmit_x]
  rfl

/-- A handler appends the table's records about its first register operand. -/
theorem Handled.obs_eq_table {s u : State} {i : Instr} {r : RegIndex} (h : Handled s i u)
    (hr : ∀ a ∈ i.registerOperands.head?, a.toNat = r.val) : u.obs = s.obs ++ tableRecords s u r i := by
  have named {a : Byte} {k : RegIndex} (ha : a.toNat = k.val) (hA : i.registerOperands.head? = some a) : k = r :=
    Fin.ext (ha.symm.trans (hr a hA))
  cases h with
  | hlt => exact (List.append_nil _).symm
  | prn a k ha => obtain rfl := named ha rfl; rfl
  | call a k ha => obtain rfl := named ha rfl; rfl
  | add a k ha => obtain rfl := named ha rfl; exact debugEmit_writeReg_obs s _ _ _
  | ldi a b k ha =>
    obtain rfl := named ha rfl
    rw [debugEmit_obs, readReg_writeReg_same, immediateOperand, BitVec.ofNat_toNat, BitVec.setWidth_eq]
    rfl
  | mul a b k l ha hb => obtain rfl := named ha rfl; exact debugEmit_writeReg_obs s _ _ _

/-- A completed cycle appends the table's records for the instruction it fetched. -/
theorem completedCycle_obs {s t : State} {i : Instr} {r : RegIndex} (h : CompletedCycle s t)
    (hi : decode ⟨s.mem.get s.pc, s.mem.get (s.pc + 1), s.mem.get (s.pc + 2)⟩ = .ok i)
    (hr : ∀ a ∈ i.registerOperands.head?, a.toNat = r.val) : t.obs = s.obs ++ tableRecords s t r i := by
  obtain ⟨hg, hstep, hf⟩ := h
  cases stepped_of_step hstep with
  | idle hc => simp [hc] at hg
  | raised _ e _ => simp at hf
  | completed _ hb j u hd hu =>
    cases hi.symm.trans hd
    exact hu.obs_eq_table hr

/-- Settles O15: each opcode decodes to its instruction, whose row of the table is what the cycle appends. -/
theorem recordsOfACompletedCycle : Obligations.RecordsOfACompletedCycle := by
  intro s t h
  refine ⟨fun ho => ?_, fun r hr => ?_⟩
  · have hrow := completedCycle_obs (i := .hlt) (r := 0) h (by rw [ho]; rfl) (by simp [Instr.registerOperands])
    rwa [tableRecords, List.append_nil] at hrow
  · have row {i : Instr} (hA : i.registerOperands.head? = some (s.mem.get (s.pc + 1)))
        (hi : decode ⟨s.mem.get s.pc, s.mem.get (s.pc + 1), s.mem.get (s.pc + 2)⟩ = .ok i) :
        t.obs = s.obs ++ tableRecords s t r i :=
      completedCycle_obs h hi fun a ha => by rw [hA, Option.mem_some_iff] at ha; rw [← ha, hr]
    exact ⟨fun ho => row (i := .add _) rfl (by rw [ho]; rfl), fun ho => row (i := .prn _) rfl (by rw [ho]; rfl),
      fun ho => row (i := .call _) rfl (by rw [ho]; rfl), fun ho => row (i := .ldi _ _) rfl (by rw [ho]; rfl),
      fun ho => row (i := .mul _ _) rfl (by rw [ho]; rfl)⟩

/-! ### Nothing else depends on the records or on `DEBUG_TRACE` -/

/-- The state with another setting of `DEBUG_TRACE` and other earlier records. -/
def State.withTrace (d : Bool) (o : List Record) (s : State) : State :=
  { s with params := { s.params with debugTrace := d }, obs := o }

/-- The fetch reads neither `DEBUG_TRACE` nor the records (R57). -/
theorem fetch_withTrace (d : Bool) (o : List Record) (s : State) : (s.withTrace d o).fetch = s.fetch := rfl

/-- A debug record changes the records only, under either setting (R173). -/
theorem debugEmit_withTrace (d : Bool) (o : List Record) (m : Mnemonic) (r : RegIndex) (s : State) :
    ∃ o', (s.withTrace d o).debugEmit m r = (s.debugEmit m r).withTrace d o' := by
  refine ⟨o ++ debugRecords (s.withTrace d o).params m r (s.readReg r), ?_⟩
  rw [debugEmit_eq, debugEmit_eq]
  rfl

/-- A handler has the same effect with any setting of `DEBUG_TRACE` and any earlier records, but for the records. -/
theorem Handled.withTrace {s u : State} {i : Instr} (h : Handled s i u) (d : Bool) (o : List Record) :
    ∃ o', Handled (s.withTrace d o) i (u.withTrace d o') := by
  cases h with
  | hlt => exact ⟨o, .hlt⟩
  | prn a k ha => exact ⟨_, .prn a k ha⟩
  | call a k ha => exact ⟨_, .call a k ha⟩
  | add a k ha =>
    obtain ⟨o', ho⟩ := debugEmit_withTrace d o .add k (s.writeReg k (dbl8 (s.readReg k)).toNat)
    exact ⟨o', ho ▸ .add a k ha⟩
  | ldi a b k ha =>
    obtain ⟨o', ho⟩ := debugEmit_withTrace d o .ldi k (s.writeReg k (immediateOperand b))
    exact ⟨o', ho ▸ .ldi a b k ha⟩
  | mul a b k l ha hb =>
    obtain ⟨o', ho⟩ := debugEmit_withTrace d o .mul k (s.writeReg k (alu .mul (s.readReg k) (s.readReg l)).toNat)
    exact ⟨o', ho ▸ .mul a b k l ha hb⟩

/-- A meaning with any setting of `DEBUG_TRACE` and any earlier records differs in the records only. -/
theorem exec_withTrace {i : Instr} {s t : State} (d : Bool) (o : List Record) (h : exec i s = .next t) :
    ∃ o', exec i (s.withTrace d o) = .next (t.withTrace d o') := by
  rcases exec_cases i s with ⟨u, hu, hexec⟩ | ⟨a, ha, hbad, -⟩
  · cases h.symm.trans hexec
    obtain ⟨o', hu'⟩ := hu.withTrace d o
    exact ⟨o', exec_of_handled hu'⟩
  · obtain ⟨e, he⟩ := exec_of_badOperand ha hbad
    cases h.symm.trans (he s)
    exact ⟨o, he _⟩

/-- Settles O24: the gate and the fetch are the same, an error leaves the records alone, and a meaning differs in the
records only. -/
theorem debugTraceChangesObservationsOnly : Obligations.DebugTraceChangesObservationsOnly := by
  intro s t d o hstep
  change ∃ o', step (s.withTrace d o) = .next (t.withTrace d o')
  have hfetch := fetch_withTrace d o s
  rcases step_cases s with ⟨hg, h⟩ | ⟨hg, -, addr, hf, h⟩ | ⟨hg, hb, hd, h⟩ | ⟨hg, hb, i, hd, h, -⟩
  · cases hstep.symm.trans h
    exact ⟨o, step_of_gate_closed hg⟩
  · cases hstep.symm.trans h
    exact ⟨o, step_of_fetch_error hg (hfetch.trans hf)⟩
  · cases hstep.symm.trans h
    exact ⟨o, step_of_unknown (s := s.withTrace d o) hg (hfetch.trans (fetch_ok hb)) hd⟩
  · obtain ⟨o', hexec⟩ := exec_withTrace d o (h.symm.trans hstep)
    have hrun : step (s.withTrace d o) = exec i (s.withTrace d o) :=
      step_of_decoded hg (hfetch.trans (fetch_ok hb)) hd
    exact ⟨o', hrun.trans hexec⟩

end Sys2Proof.Machine

/-! The statement about HLT: its handler, the one with no operand to check, runs to its end in every state, and the PC
advance follows it (44_system.md). -/

namespace Sys2Proof.Machine

/-- HLT's handler and the PC advance, as one update (R115, R180, D29). -/
theorem advance_raiseHalt (ir : Byte) (s : State) :
    s.raiseHalt.advance ir = { s with halt := true, clockRunning := false, pc := s.pc + decodeLength ir } := rfl

/-- The row of HLT in the opcode map declares no operand, so its encoded length is 1 (R82, R87). -/
theorem decodeLength_opcodeByte_hlt : decodeLength (opcodeByte .hlt) = 1 := rfl

/-- Settles O25: HLT's handler always completes, and the PC advance by HLT's encoded length follows it. -/
theorem hltHalts : Obligations.HltHalts := by
  refine ⟨rfl, fun s => ?_⟩
  have hexec : exec .hlt s = .next (s.raiseHalt.advance (opcodeByte .hlt)) := exec_of_handled .hlt
  rw [hexec, advance_raiseHalt, decodeLength_opcodeByte_hlt]

end Sys2Proof.Machine

/-! The statements about errors: which error a cycle records, and that a cycle in which none applies completes
(60_exceptions.md). -/

namespace Sys2Proof.Machine

/-! ### The instructions that complete -/

/-- With every register operand in `0..7` the handler runs to its end in every state (R201). -/
theorem exec_completes_of_wellFormed {i : Instr} (h : i.wellFormed = true) (s : State) :
    ∃ u, Handled s i u ∧ exec i s = .next (u.advance (opcodeByte i.mnemonic)) :=
  (exec_cases i s).resolve_right fun ⟨_, ha, hbad, _⟩ => absurd (registerOperand_le_of_wellFormed h ha) (by omega)

/-- A handler runs to its end only if each register operand names a register (R22, R114). -/
theorem Handled.wellFormed {s u : State} {i : Instr} (h : Handled s i u) : i.wellFormed = true := by
  have le_seven {a : Byte} {k : RegIndex} (ha : a.toNat = k.val) : a.toNat ≤ 7 := by omega
  cases h with
  | hlt => rfl
  | add a k ha => simp [Instr.wellFormed, Instr.registerOperands, le_seven ha]
  | prn a k ha => simp [Instr.wellFormed, Instr.registerOperands, le_seven ha]
  | call a k ha => simp [Instr.wellFormed, Instr.registerOperands, le_seven ha]
  | ldi a b k ha => simp [Instr.wellFormed, Instr.registerOperands, le_seven ha]
  | mul a b k l ha hb => simp [Instr.wellFormed, Instr.registerOperands, le_seven ha, le_seven hb]

/-- Settles O31: the handler keeps all this, and the PC advance follows it. -/
theorem wellFormedInstructionsComplete : Obligations.WellFormedInstructionsComplete := by
  intro i s hw
  obtain ⟨u, hu, hexec⟩ := exec_completes_of_wellFormed hw s
  exact ⟨_, hexec, hu.fault_eq, hu.mem_eq, hu.params_eq, by rw [advance_pc, hu.pc_eq]⟩

/-- Settles O17: a completed cycle is one whose handler ran to its end, which is what well-formed instructions do. -/
theorem cycleCompletesExactlyWhenNoErrorApplies : Obligations.CycleCompletesExactlyWhenNoErrorApplies := by
  intro s hg
  constructor
  · rintro ⟨t, -, hstep, hf⟩
    cases stepped_of_step hstep with
    | idle hc => simp [hc] at hg
    | raised _ e _ => simp at hf
    | completed _ hb i u hd hu => exact ⟨hb, i, hd, hu.wellFormed⟩
  · rintro ⟨hb, i, hd, hw⟩
    obtain ⟨u, hu, hexec⟩ := exec_completes_of_wellFormed hw s
    exact ⟨_, hg, (stepRunsDecodedInstruction s i hg hb hd).trans hexec, completed_fault_none hg hu _⟩

/-! ### The error a cycle records -/

/-- The first of the three fetch addresses outside memory is the error: `pc` itself, or a later one whose predecessor
is inside (R57, R192). -/
theorem step_of_firstBadAddress {s : State} {k : Nat} (hg : s.gateOpen = true) (hk : k ≤ 2)
    (hin : k = 0 ∨ s.pc + k ≤ s.params.memSize) (hout : s.params.memSize ≤ s.pc + k) :
    step s = .next (s.raise (.outOfBoundsAccess (s.pc + k))) := by
  refine step_of_fetch_error hg ?_
  rcases fetch_cases s with ⟨hb, -⟩ | ⟨hb, hf⟩ | ⟨hb, hf⟩ | ⟨hb, hf⟩
  · omega
  · obtain rfl : k = 0 := by omega
    exact hf
  · obtain rfl : k = 1 := by omega
    exact hf
  · obtain rfl : k = 2 := by omega
    exact hf

/-- With a decoded instruction, its first register operand above 7 is the error (R193, R194). -/
theorem step_of_firstBadOperand {s : State} {i : Instr} {a : Byte} (hg : s.gateOpen = true)
    (hb : s.pc + 2 < s.params.memSize)
    (hd : decode ⟨s.mem.get s.pc, s.mem.get (s.pc + 1), s.mem.get (s.pc + 2)⟩ = .ok i)
    (ha : i.registerOperands.find? (fun b => decide (7 < b.toNat)) = some a) :
    step s = .next (s.raise (.registerIndexOutOfRange a)) :=
  (stepRunsDecodedInstruction s i hg hb hd).trans (firstBadRegisterOperandIsTheError i s a ha)

/-- Every instruction but HLT has byte `A` as its first register operand (R84). -/
theorem exists_decode_registerOperand {ir : Byte} (h : ir ∈ ([24, 67, 72, 153, 170] : List Byte)) (A B : Byte) :
    ∃ i rest, decode ⟨ir, A, B⟩ = .ok i ∧ i.registerOperands = A :: rest := by
  simp only [List.mem_cons, List.not_mem_nil, or_false] at h
  rcases h with rfl | rfl | rfl | rfl | rfl
  · exact ⟨.add A, [], rfl, rfl⟩
  · exact ⟨.prn A, [], rfl, rfl⟩
  · exact ⟨.call A, [], rfl, rfl⟩
  · exact ⟨.ldi A B, [], rfl, rfl⟩
  · exact ⟨.mul A B, [B], rfl, rfl⟩

/-- Settles O9: the fetch addresses in order, then the opcode, then the register operands in order. -/
theorem errorPriority : Obligations.ErrorPriority := by
  intro s hg
  refine ⟨fun hout => ?_, fun hin hout => ?_, fun hin hout => ?_, fun hb hir => ?_, fun hb hir hA => ?_,
    fun hb hir hA hB => ?_⟩
  · exact step_of_firstBadAddress (k := 0) hg (by omega) (.inl rfl) hout
  · exact step_of_firstBadAddress (k := 1) hg (by omega) (.inr hin) hout
  · exact step_of_firstBadAddress (k := 2) hg (by omega) (.inr hin) hout
  · have hnone : Sys2Proof.dispatch (s.mem.get s.pc) = none :=
      (dispatch_eq_none_iff _).mpr fun m hm => hir ((mem_opcodes_iff _).mpr ⟨m, hm⟩)
    exact step_of_unknown hg (fetch_ok hb) hnone
  · obtain ⟨i, rest, hd, hops⟩ := exists_decode_registerOperand hir (s.mem.get (s.pc + 1)) (s.mem.get (s.pc + 2))
    exact step_of_firstBadOperand hg hb hd (by simp [hops, hA])
  · have hmul (A B : Byte) : decode ⟨s.mem.get s.pc, A, B⟩ = .ok (.mul A B) := by rw [hir]; rfl
    exact step_of_firstBadOperand hg hb (hmul _ _) (by simp [Instr.registerOperands, Nat.not_lt.mpr hA, hB])

end Sys2Proof.Machine

/-! The statements about reset and about the hazards a host or a program runs into: the fetch at the top of memory, ADD
executing its own operand byte, and what the engine owes the host when a run ends (70_reset_and_hazards.md). -/

namespace Sys2Proof.Machine

/-! ### Reset -/

/-- After reset and `start()` the gate is open (R38, R110). -/
theorem gateOpen_start_resetEvent (s : State) : s.resetEvent.start.gateOpen = true :=
  (gateOpen_iff _).mpr ⟨rfl, rfl, rfl⟩

/-- Settles O48: reset creates the engine anew on the old memory, and `start()` opens the gate with `pc` at 0. -/
theorem resetEventKeepsMemory : Obligations.ResetEventKeepsMemory := by
  intro s
  obtain ⟨hcreated, -⟩ := stateAfterReset
  obtain ⟨hregs, hpc, hhalt, hfault, -, hobs, hclock, hmem, hparams⟩ := hcreated s.params s.mem
  refine ⟨⟨s.resetEvent, rfl, hregs, hpc, hhalt, hfault, hobs, hclock, hmem, hparams⟩, fun i hb hd => ?_⟩
  exact stepRunsDecodedInstruction s.resetEvent.start i (gateOpen_start_resetEvent s) hb hd

/-! ### How a cycle ends a run -/

/-- No handler but HLT's changes what the gate looks at (R110, R114, R180). -/
theorem Handled.gateOpen_cases {s u : State} {i : Instr} (h : Handled s i u) :
    (i = .hlt ∧ u = s.raiseHalt) ∨ u.gateOpen = s.gateOpen := by
  cases h with
  | hlt => exact .inl ⟨rfl, rfl⟩
  | _ => exact .inr (Bool.eq_iff_iff.mpr (by simp [gateOpen_iff]))

/-- Settles O22: an error stops the clock and is recorded, HLT stops it and sets `halt`, and every other handler leaves
the gate open. -/
theorem clockStopsExactlyAtTheEnd : Obligations.ClockStopsExactlyAtTheEnd := by
  intro s t hg hstep
  obtain ⟨-, hf, hh⟩ := (gateOpen_iff s).mp hg
  cases stepped_of_step hstep with
  | idle hc => simp [hc] at hg
  | raised _ e _ => simp [status_running_iff, hh]
  | completed _ _ i u _ hu =>
    rcases hu.gateOpen_cases with ⟨rfl, rfl⟩ | hgate
    · simp [GoodEnd, State.status, hf]
    · obtain ⟨hcu, hfu, hhu⟩ := (gateOpen_iff u).mp (hgate.trans hg)
      simp [status_running_iff, hcu, hfu, hhu]

/-! ### The top of memory -/

/-- With three bytes to fetch, the opcode 1 halts the engine one byte on, whatever the other two are (R112, R180). -/
theorem step_of_opcode_hlt {s : State} (hg : s.gateOpen = true) (hb : s.pc + 2 < s.params.memSize)
    (hir : s.mem.get s.pc = 1) : step s = .next { s with halt := true, clockRunning := false, pc := s.pc + 1 } := by
  obtain ⟨-, hexec⟩ := hltHalts
  have hd : decode ⟨s.mem.get s.pc, s.mem.get (s.pc + 1), s.mem.get (s.pc + 2)⟩ = .ok .hlt := by rw [hir]; rfl
  exact (stepRunsDecodedInstruction s .hlt hg hb hd).trans (hexec s)

/-- Settles O19: from the last two addresses the fetch first leaves memory at `MEM_SIZE`, and from `MEM_SIZE-3` it stays
inside. -/
theorem overFetchAtTheTopOfMemory : Obligations.OverFetchAtTheTopOfMemory := by
  refine ⟨fun s hg hin hout => ?_, fun s hg htop hir => step_of_opcode_hlt hg (by omega) hir⟩
  obtain ⟨k, hsize⟩ := Nat.exists_eq_add_of_le hin.le
  rw [hsize]
  exact step_of_firstBadAddress hg (by omega) (.inr hsize.ge) hsize.le

/-! ### ADD and its operand byte -/

/-- ADD with an operand in `0..7` leaves the gate open and `pc` at the operand byte, memory and parameters as they were
(R88, R145). -/
theorem step_of_opcode_add {s : State} (hg : s.gateOpen = true) (hb : s.pc + 2 < s.params.memSize)
    (hir : s.mem.get s.pc = 24) (ha : (s.mem.get (s.pc + 1)).toNat < 8) :
    ∃ t, step s = .next t ∧ t.gateOpen = true ∧ t.pc = s.pc + 1 ∧ t.mem = s.mem ∧ t.params = s.params := by
  obtain ⟨-, hexec, -⟩ := addDoublesRegister
  have hd : decode ⟨s.mem.get s.pc, s.mem.get (s.pc + 1), s.mem.get (s.pc + 2)⟩ =
      .ok (.add (s.mem.get (s.pc + 1))) := by rw [hir]; rfl
  exact ⟨_, (stepRunsDecodedInstruction s _ hg hb hd).trans (hexec _ s ha), hg, rfl, rfl, rfl⟩

/-- A run of two steps. -/
theorem run_two {s t u : State} (hs : step s = .next t) (ht : step t = .next u) : core.run 2 s = .next u :=
  (run_succ 1 hs).trans (run_succ 0 ht)

/-- Settles O20: a good ADD leaves `pc` at its operand byte, which the second cycle takes as an opcode; a bad one
records its operand. -/
theorem addOperandIsTheNextOpcode : Obligations.AddOperandIsTheNextOpcode := by
  intro s hg hb hir a
  have second (ha : a.toNat < 8) (hb' : s.pc + 3 < s.params.memSize) :
      ∃ t, step s = .next t ∧ t.gateOpen = true ∧ t.pc = s.pc + 1 ∧ t.pc + 2 < t.params.memSize ∧
        t.mem.get t.pc = a := by
    obtain ⟨t, hstep, hgt, hpc, hmem, hparams⟩ := step_of_opcode_add hg hb hir ha
    exact ⟨t, hstep, hgt, hpc, by rw [hpc, hparams]; omega, by rw [hpc, hmem]⟩
  refine ⟨fun ha hb' => ?_, fun ha hb' => ?_, fun ha => ?_⟩
  · obtain ⟨t, hstep, hgt, hpc, hbt, hop⟩ := second (by simp [ha]) hb'
    have hhlt := step_of_opcode_hlt hgt hbt (hop.trans ha)
    obtain ⟨-, hf, -⟩ := (gateOpen_iff t).mp hgt
    exact ⟨_, run_two hstep hhlt, by simp [State.status, hf], by simp [hpc]⟩
  · have hunknown : ∀ o ∈ ([0, 2, 3, 4, 5, 6, 7] : List Byte),
        o.toNat < 8 ∧ o ∉ ([1, 24, 67, 72, 153, 170] : List Byte) := by decide
    obtain ⟨hlt, hno⟩ := hunknown a ha
    obtain ⟨t, hstep, hgt, hpc, hbt, hop⟩ := second hlt hb'
    obtain ⟨-, -, -, herror, -⟩ := errorPriority t hgt
    obtain ⟨-, -, hhalt⟩ := (gateOpen_iff t).mp hgt
    exact ⟨_, run_two hstep (herror hbt (hop ▸ hno)), by simp [hop], hhalt, hpc⟩
  · obtain ⟨-, -, -, -, herror, -⟩ := errorPriority s hg
    obtain ⟨-, -, hhalt⟩ := (gateOpen_iff s).mp hg
    exact ⟨_, run_succ 0 (herror hb (by simp [hir]) ha), rfl, hhalt, rfl⟩

end Sys2Proof.Machine
